-- ==== Sys2Proof/Word.lean ====
section
/-! DEFINITION. The word types of the machine (00_scope.md R5, R6): bit 0 is the least significant bit of any value. -/

namespace Sys2Proof

/-- An 8-bit value: a general register, a timer, a memory byte, an immediate `nn` (00_scope.md R5 `XLEN`). -/
abbrev Byte := BitVec 8

/-- A 16-bit value: the instruction word, `I`, `pc`, a stack entry (00_scope.md R5 `ILEN`, `PCLEN`). -/
abbrev Word := BitVec 16

/-- A 12-bit address field `nnn` (30_encoding.md R71). -/
abbrev Addr := BitVec 12

/-- A 4-bit field: the row count `n` of `Dxyn`, or one nibble of a word (00_scope.md R6). -/
abbrev Nibble := BitVec 4

/-- A register index 0 to 15; every index is legal (10_state.md R21). -/
abbrev Reg := Fin 16

/-- A logical key number 0x0 to 0xF (10_state.md R34). -/
abbrev Key := Fin 16

/-- VF, general register 15, the one flag (10_state.md R22). -/
def vf : Reg := 15

/-- The nibble that encodes a register index. -/
def Reg.toNibble (k : Reg) : Nibble := BitVec.ofFin k

/-- The register index that a nibble encodes. -/
def Reg.ofNibble (b : Nibble) : Reg := b.toFin

@[simp] theorem Reg.ofNibble_toNibble (k : Reg) : Reg.ofNibble (Reg.toNibble k) = k := rfl

@[simp] theorem Reg.toNibble_ofNibble (b : Nibble) : Reg.toNibble (Reg.ofNibble b) = b := rfl

end Sys2Proof
end

