-- ==== Sys2Proof/Syntax.lean ====
section
/-! DEFINITION. The instruction set: one constructor for each of the 42 rows of opcode_table.json, in the table's
order (30_encoding.md R76). A constructor holds exactly the fields that the spec decodes for its row; fields it calls
don't-care (R77, R78) are no part of the instruction. -/

namespace Sys2Proof

inductive Instr where
  /-- `00E0` CLS (44_display.md R180). -/
  | cls
  /-- `00EE` RET (40_control_flow.md R101). -/
  | ret
  /-- `0nnn` SYS nnn, any other class 0 word (40_control_flow.md R100). -/
  | sys (nnn : Addr)
  /-- `1nnn` JP nnn (40_control_flow.md R102). -/
  | jp (nnn : Addr)
  /-- `2nnn` CALL nnn (40_control_flow.md R103). -/
  | call (nnn : Addr)
  /-- `3xnn` SE Vx, nn (41_skips.md R120). -/
  | seImm (x : Reg) (nn : Byte)
  /-- `4xnn` SNE Vx, nn (41_skips.md R121). -/
  | sneImm (x : Reg) (nn : Byte)
  /-- `5xy0` SE Vx, Vy (41_skips.md R122). -/
  | seReg (x y : Reg)
  /-- `6xnn` LD Vx, nn (42_alu.md R130). -/
  | ldImm (x : Reg) (nn : Byte)
  /-- `7xnn` ADD Vx, nn (42_alu.md R131). -/
  | addImm (x : Reg) (nn : Byte)
  /-- `8xy0` LD Vx, Vy (42_alu.md R132). -/
  | ldReg (x y : Reg)
  /-- `8xy1` OR Vx, Vy (42_alu.md R133). -/
  | orReg (x y : Reg)
  /-- `8xy2` AND Vx, Vy (42_alu.md R134). -/
  | andReg (x y : Reg)
  /-- `8xy3` XOR Vx, Vy (42_alu.md R135). -/
  | xorReg (x y : Reg)
  /-- `8xy4` ADD Vx, Vy (42_alu.md R136). -/
  | addReg (x y : Reg)
  /-- `8xy5` SUB Vx, Vy (42_alu.md R137). -/
  | subReg (x y : Reg)
  /-- `8xy6` SHR Vx (42_alu.md R138). -/
  | shr (x : Reg)
  /-- `8xy7` SUBN Vx, Vy (42_alu.md R139). -/
  | subn (x y : Reg)
  /-- `8xyE` SHL Vx (42_alu.md R140). -/
  | shl (x : Reg)
  /-- `9xy0` SNE Vx, Vy (41_skips.md R123). -/
  | sneReg (x y : Reg)
  /-- `Annn` LD I, nnn (43_index_memory.md R160). -/
  | ldI (nnn : Addr)
  /-- `Bnnn` JP V0, nnn (40_control_flow.md R104). -/
  | jpV0 (nnn : Addr)
  /-- `Cxnn` RND Vx, nn (42_alu.md R142). -/
  | rnd (x : Reg) (nn : Byte)
  /-- `Dxyn` DRW Vx, Vy, n (44_display.md R181). -/
  | drw (x y : Reg) (n : Nibble)
  /-- `Ex9E` SKP Vx (45_timers_keypad.md R203). -/
  | skp (x : Reg)
  /-- `ExA1` SKNP Vx (45_timers_keypad.md R204). -/
  | sknp (x : Reg)
  /-- `Fx07` LD Vx, DT (45_timers_keypad.md R200). -/
  | ldFromDt (x : Reg)
  /-- `Fx0A` LD Vx, K (45_timers_keypad.md R205). -/
  | ldKey (x : Reg)
  /-- `Fx15` LD DT, Vx (45_timers_keypad.md R201). -/
  | ldToDt (x : Reg)
  /-- `Fx18` LD ST, Vx (45_timers_keypad.md R202). -/
  | ldToSt (x : Reg)
  /-- `Fx1E` ADD I, Vx (43_index_memory.md R161). -/
  | addI (x : Reg)
  /-- `Fx29` LD F, Vx (43_index_memory.md R162). -/
  | ldFont (x : Reg)
  /-- `Fx33` LD B, Vx (43_index_memory.md R164). -/
  | ldBcd (x : Reg)
  /-- `Fx55` LD [I], Vx (43_index_memory.md R165). -/
  | store (x : Reg)
  /-- `Fx65` LD Vx, [I] (43_index_memory.md R166). -/
  | load (x : Reg)
  /-- `8xy8` ALUNOP (42_alu.md R141), and the six words after it. -/
  | alunop8
  /-- `8xy9` ALUNOP. -/
  | alunop9
  /-- `8xyA` ALUNOP. -/
  | alunopA
  /-- `8xyB` ALUNOP. -/
  | alunopB
  /-- `8xyC` ALUNOP. -/
  | alunopC
  /-- `8xyD` ALUNOP. -/
  | alunopD
  /-- `8xyF` ALUNOP. -/
  | alunopF
  deriving DecidableEq, Repr

end Sys2Proof
end

