-- ==== Sys2Proof/WellFormed.lean ====
section
/-! DEFINITION. The instructions that have an encoding. The field types already hold every bound of 30_encoding.md R71
and R73 (each register index, immediate and address of its width is legal); the one condition left is that of row 3 of
R76: `SYS nnn` is "any other `0nnn`", so 0x0E0 and 0x0EE are not its operands (R80). -/

namespace Sys2Proof

def Instr.wf : Instr → Bool
  | .cls => true
  | .ret => true
  | .sys nnn => nnn != 0x0E0 && nnn != 0x0EE
  | .jp _ => true
  | .call _ => true
  | .seImm _ _ => true
  | .sneImm _ _ => true
  | .seReg _ _ => true
  | .ldImm _ _ => true
  | .addImm _ _ => true
  | .ldReg _ _ => true
  | .orReg _ _ => true
  | .andReg _ _ => true
  | .xorReg _ _ => true
  | .addReg _ _ => true
  | .subReg _ _ => true
  | .shr _ => true
  | .subn _ _ => true
  | .shl _ => true
  | .sneReg _ _ => true
  | .ldI _ => true
  | .jpV0 _ => true
  | .rnd _ _ => true
  | .drw _ _ _ => true
  | .skp _ => true
  | .sknp _ => true
  | .ldFromDt _ => true
  | .ldKey _ => true
  | .ldToDt _ => true
  | .ldToSt _ => true
  | .addI _ => true
  | .ldFont _ => true
  | .ldBcd _ => true
  | .store _ => true
  | .load _ => true
  | .alunop8 => true
  | .alunop9 => true
  | .alunopA => true
  | .alunopB => true
  | .alunopC => true
  | .alunopD => true
  | .alunopF => true

end Sys2Proof
end

