-- ==== Sys2Proof/Decode.lean ====
section
/-! DEFINITION. The decoder (30_encoding.md R70 to R81), total on any bytes and rejecting by name, then the encoder and
the opcode map of R76 as a table. -/

namespace Sys2Proof

/-- The nibble-aligned field function of 30_encoding.md R74: `k` nibbles from nibble `lo` up. -/
def field (w : Word) (lo k : Nat) : BitVec (4 * k) := w.extractLsb' (4 * lo) (4 * k)

/-- `c`, the opcode class (30_encoding.md R71). -/
def classOf (w : Word) : Nibble := field w 3 1

/-- `x`, the first register index. -/
def xOf (w : Word) : Reg := Reg.ofNibble (field w 2 1)

/-- `y`, the second register index. -/
def yOf (w : Word) : Reg := Reg.ofNibble (field w 1 1)

/-- `n`, the 4-bit immediate. -/
def nOf (w : Word) : Nibble := field w 0 1

/-- `nn`, the 8-bit immediate. -/
def nnOf (w : Word) : Byte := field w 0 2

/-- `nnn`, the 12-bit address. -/
def nnnOf (w : Word) : Addr := field w 0 3

/-- Why bytes are no instruction. -/
inductive DecodeError where
  /-- Fewer than the two bytes of an instruction (30_encoding.md R70). -/
  | truncated
  /-- Class E with a low byte other than 0x9E and 0xA1 (30_encoding.md R79). -/
  | undefinedClassE (w : Word)
  /-- Class F with a low byte outside the nine defined values (30_encoding.md R79). -/
  | undefinedClassF (w : Word)
  deriving DecidableEq, Repr

/-- Class 0, by the whole `nnn` (30_encoding.md R75, R80). -/
def decodeClass0 (w : Word) : Instr :=
  if nnnOf w = 0x0E0 then .cls
  else if nnnOf w = 0x0EE then .ret
  else .sys (nnnOf w)

/-- Class 8, by `n`: nine operations, and ALUNOP for the other seven values (30_encoding.md R75, R78). -/
def decodeClass8 (w : Word) : Instr :=
  match (nOf w).toNat with
  | 0x0 => .ldReg (xOf w) (yOf w)
  | 0x1 => .orReg (xOf w) (yOf w)
  | 0x2 => .andReg (xOf w) (yOf w)
  | 0x3 => .xorReg (xOf w) (yOf w)
  | 0x4 => .addReg (xOf w) (yOf w)
  | 0x5 => .subReg (xOf w) (yOf w)
  | 0x6 => .shr (xOf w)
  | 0x7 => .subn (xOf w) (yOf w)
  | 0x8 => .alunop8
  | 0x9 => .alunop9
  | 0xA => .alunopA
  | 0xB => .alunopB
  | 0xC => .alunopC
  | 0xD => .alunopD
  | 0xE => .shl (xOf w)
  | _ => .alunopF

/-- Class E, by `nn` (30_encoding.md R75, R79). -/
def decodeClassE (w : Word) : Except DecodeError Instr :=
  if nnOf w = 0x9E then .ok (.skp (xOf w))
  else if nnOf w = 0xA1 then .ok (.sknp (xOf w))
  else .error (.undefinedClassE w)

/-- Class F, by `nn` (30_encoding.md R75, R79). -/
def decodeClassF (w : Word) : Except DecodeError Instr :=
  if nnOf w = 0x07 then .ok (.ldFromDt (xOf w))
  else if nnOf w = 0x0A then .ok (.ldKey (xOf w))
  else if nnOf w = 0x15 then .ok (.ldToDt (xOf w))
  else if nnOf w = 0x18 then .ok (.ldToSt (xOf w))
  else if nnOf w = 0x1E then .ok (.addI (xOf w))
  else if nnOf w = 0x29 then .ok (.ldFont (xOf w))
  else if nnOf w = 0x33 then .ok (.ldBcd (xOf w))
  else if nnOf w = 0x55 then .ok (.store (xOf w))
  else if nnOf w = 0x65 then .ok (.load (xOf w))
  else .error (.undefinedClassF w)

/-- The two-level dispatch of 30_encoding.md R75: first the class, then in classes 0, 8, E and F a secondary field.
Classes 5 and 9 have none, so their low nibble is not decoded (R77). -/
def decodeWord (w : Word) : Except DecodeError Instr :=
  match (classOf w).toNat with
  | 0x0 => .ok (decodeClass0 w)
  | 0x1 => .ok (.jp (nnnOf w))
  | 0x2 => .ok (.call (nnnOf w))
  | 0x3 => .ok (.seImm (xOf w) (nnOf w))
  | 0x4 => .ok (.sneImm (xOf w) (nnOf w))
  | 0x5 => .ok (.seReg (xOf w) (yOf w))
  | 0x6 => .ok (.ldImm (xOf w) (nnOf w))
  | 0x7 => .ok (.addImm (xOf w) (nnOf w))
  | 0x8 => .ok (decodeClass8 w)
  | 0x9 => .ok (.sneReg (xOf w) (yOf w))
  | 0xA => .ok (.ldI (nnnOf w))
  | 0xB => .ok (.jpV0 (nnnOf w))
  | 0xC => .ok (.rnd (xOf w) (nnOf w))
  | 0xD => .ok (.drw (xOf w) (yOf w) (nOf w))
  | 0xE => decodeClassE w
  | _ => decodeClassF w

/-- The word of two bytes, high byte first (20_memory.md R53). -/
def wordOfBytes (hi lo : Byte) : Word := hi ++ lo

/-- The byte of a word at the lower address: bits 15:8. -/
def highByte (w : Word) : Byte := w.extractLsb' 8 8

/-- The byte of a word at the higher address: bits 7:0. -/
def lowByte (w : Word) : Byte := w.extractLsb' 0 8

/-- Reads one instruction off a sequence of bytes and answers it with the rest (30_encoding.md R70). -/
def decode : List Byte → Except DecodeError (Instr × List Byte)
  | hi :: lo :: rest =>
    match decodeWord (wordOfBytes hi lo) with
    | .ok i => .ok (i, rest)
    | .error e => .error e
  | [_] => .error .truncated
  | [] => .error .truncated

/-- Format NNN (30_encoding.md R72). -/
def formatNNN (c : Nibble) (nnn : Addr) : Word := c ++ nnn

/-- Format XNN (30_encoding.md R72). -/
def formatXNN (c : Nibble) (x : Reg) (nn : Byte) : Word := (c ++ x.toNibble) ++ nn

/-- Format XYN (30_encoding.md R72). -/
def formatXYN (c : Nibble) (x y : Reg) (n : Nibble) : Word := (c ++ x.toNibble) ++ (y.toNibble ++ n)

/-- The word of an instruction, from the patterns of 30_encoding.md R76; a don't-care field is 0 (R77). -/
def encodeWord : Instr → Word
  | .cls => 0x00E0
  | .ret => 0x00EE
  | .sys nnn => formatNNN 0x0 nnn
  | .jp nnn => formatNNN 0x1 nnn
  | .call nnn => formatNNN 0x2 nnn
  | .seImm x nn => formatXNN 0x3 x nn
  | .sneImm x nn => formatXNN 0x4 x nn
  | .seReg x y => formatXYN 0x5 x y 0x0
  | .ldImm x nn => formatXNN 0x6 x nn
  | .addImm x nn => formatXNN 0x7 x nn
  | .ldReg x y => formatXYN 0x8 x y 0x0
  | .orReg x y => formatXYN 0x8 x y 0x1
  | .andReg x y => formatXYN 0x8 x y 0x2
  | .xorReg x y => formatXYN 0x8 x y 0x3
  | .addReg x y => formatXYN 0x8 x y 0x4
  | .subReg x y => formatXYN 0x8 x y 0x5
  | .shr x => formatXYN 0x8 x 0 0x6
  | .subn x y => formatXYN 0x8 x y 0x7
  | .shl x => formatXYN 0x8 x 0 0xE
  | .sneReg x y => formatXYN 0x9 x y 0x0
  | .ldI nnn => formatNNN 0xA nnn
  | .jpV0 nnn => formatNNN 0xB nnn
  | .rnd x nn => formatXNN 0xC x nn
  | .drw x y n => formatXYN 0xD x y n
  | .skp x => formatXNN 0xE x 0x9E
  | .sknp x => formatXNN 0xE x 0xA1
  | .ldFromDt x => formatXNN 0xF x 0x07
  | .ldKey x => formatXNN 0xF x 0x0A
  | .ldToDt x => formatXNN 0xF x 0x15
  | .ldToSt x => formatXNN 0xF x 0x18
  | .addI x => formatXNN 0xF x 0x1E
  | .ldFont x => formatXNN 0xF x 0x29
  | .ldBcd x => formatXNN 0xF x 0x33
  | .store x => formatXNN 0xF x 0x55
  | .load x => formatXNN 0xF x 0x65
  | .alunop8 => 0x8008
  | .alunop9 => 0x8009
  | .alunopA => 0x800A
  | .alunopB => 0x800B
  | .alunopC => 0x800C
  | .alunopD => 0x800D
  | .alunopF => 0x800F

/-- The two bytes of an instruction as memory holds them, high byte first (20_memory.md R53). -/
def encode (i : Instr) : List Byte := [highByte (encodeWord i), lowByte (encodeWord i)]

/-- One row of the opcode map of 30_encoding.md R76: a word `w` is the row's instruction when `w & mask = pattern`. -/
structure OpcodeRow where
  mask : Word
  pattern : Word
  build : Word → Instr

/-- Rows 1 to 10 of R76. -/
def opcodeRowsA : List OpcodeRow :=
  [⟨0xFFFF, 0x00E0, fun _ => .cls⟩, ⟨0xFFFF, 0x00EE, fun _ => .ret⟩,
   ⟨0xF000, 0x0000, fun w => .sys (nnnOf w)⟩, ⟨0xF000, 0x1000, fun w => .jp (nnnOf w)⟩,
   ⟨0xF000, 0x2000, fun w => .call (nnnOf w)⟩, ⟨0xF000, 0x3000, fun w => .seImm (xOf w) (nnOf w)⟩,
   ⟨0xF000, 0x4000, fun w => .sneImm (xOf w) (nnOf w)⟩, ⟨0xF000, 0x5000, fun w => .seReg (xOf w) (yOf w)⟩,
   ⟨0xF000, 0x6000, fun w => .ldImm (xOf w) (nnOf w)⟩, ⟨0xF000, 0x7000, fun w => .addImm (xOf w) (nnOf w)⟩]

/-- Rows 11 to 19 of R76. -/
def opcodeRowsB : List OpcodeRow :=
  [⟨0xF00F, 0x8000, fun w => .ldReg (xOf w) (yOf w)⟩, ⟨0xF00F, 0x8001, fun w => .orReg (xOf w) (yOf w)⟩,
   ⟨0xF00F, 0x8002, fun w => .andReg (xOf w) (yOf w)⟩, ⟨0xF00F, 0x8003, fun w => .xorReg (xOf w) (yOf w)⟩,
   ⟨0xF00F, 0x8004, fun w => .addReg (xOf w) (yOf w)⟩, ⟨0xF00F, 0x8005, fun w => .subReg (xOf w) (yOf w)⟩,
   ⟨0xF00F, 0x8006, fun w => .shr (xOf w)⟩, ⟨0xF00F, 0x8007, fun w => .subn (xOf w) (yOf w)⟩,
   ⟨0xF00F, 0x800E, fun w => .shl (xOf w)⟩]

/-- Rows 20 to 26 of R76. -/
def opcodeRowsC : List OpcodeRow :=
  [⟨0xF000, 0x9000, fun w => .sneReg (xOf w) (yOf w)⟩, ⟨0xF000, 0xA000, fun w => .ldI (nnnOf w)⟩,
   ⟨0xF000, 0xB000, fun w => .jpV0 (nnnOf w)⟩, ⟨0xF000, 0xC000, fun w => .rnd (xOf w) (nnOf w)⟩,
   ⟨0xF000, 0xD000, fun w => .drw (xOf w) (yOf w) (nOf w)⟩, ⟨0xF0FF, 0xE09E, fun w => .skp (xOf w)⟩,
   ⟨0xF0FF, 0xE0A1, fun w => .sknp (xOf w)⟩]

/-- Rows 27 to 35 of R76. -/
def opcodeRowsD : List OpcodeRow :=
  [⟨0xF0FF, 0xF007, fun w => .ldFromDt (xOf w)⟩, ⟨0xF0FF, 0xF00A, fun w => .ldKey (xOf w)⟩,
   ⟨0xF0FF, 0xF015, fun w => .ldToDt (xOf w)⟩, ⟨0xF0FF, 0xF018, fun w => .ldToSt (xOf w)⟩,
   ⟨0xF0FF, 0xF01E, fun w => .addI (xOf w)⟩, ⟨0xF0FF, 0xF029, fun w => .ldFont (xOf w)⟩,
   ⟨0xF0FF, 0xF033, fun w => .ldBcd (xOf w)⟩, ⟨0xF0FF, 0xF055, fun w => .store (xOf w)⟩,
   ⟨0xF0FF, 0xF065, fun w => .load (xOf w)⟩]

/-- Row 36 of R76, expanded into its seven words. -/
def opcodeRowsE : List OpcodeRow :=
  [⟨0xF00F, 0x8008, fun _ => .alunop8⟩, ⟨0xF00F, 0x8009, fun _ => .alunop9⟩, ⟨0xF00F, 0x800A, fun _ => .alunopA⟩,
   ⟨0xF00F, 0x800B, fun _ => .alunopB⟩, ⟨0xF00F, 0x800C, fun _ => .alunopC⟩, ⟨0xF00F, 0x800D, fun _ => .alunopD⟩,
   ⟨0xF00F, 0x800F, fun _ => .alunopF⟩]

/-- The complete opcode map of 30_encoding.md R76, in the order in which its rows are tried. -/
def opcodeMap : List OpcodeRow := opcodeRowsA ++ opcodeRowsB ++ opcodeRowsC ++ opcodeRowsD ++ opcodeRowsE

/-- The instruction of the first row that `w` matches (30_encoding.md R76). -/
def decodeByMap (w : Word) : Option Instr :=
  (opcodeMap.find? fun r => w &&& r.mask == r.pattern).map fun r => r.build w

/-- The bits of an instruction's word that the decoder reads: all but the don't-care fields of 30_encoding.md R77 and
the `x` and `y` of ALUNOP (R78). -/
def decodedBits : Instr → Word
  | .seReg _ _ => 0xFFF0
  | .sneReg _ _ => 0xFFF0
  | .shr _ => 0xFF0F
  | .shl _ => 0xFF0F
  | .alunop8 => 0xF00F
  | .alunop9 => 0xF00F
  | .alunopA => 0xF00F
  | .alunopB => 0xF00F
  | .alunopC => 0xF00F
  | .alunopD => 0xF00F
  | .alunopF => 0xF00F
  | _ => 0xFFFF

/-- What the decoder reads from an instruction of opcode_table.json whose low `nbits` bits are `w` and whose other bits
are 0: one 16-bit word, laid out high byte first. -/
def decodeTableWord (nbits w : Nat) : Option Instr :=
  match decode [highByte (BitVec.ofNat 16 (w % 2 ^ nbits)), lowByte (BitVec.ofNat 16 (w % 2 ^ nbits))] with
  | .ok (i, _) => some i
  | .error _ => none

end Sys2Proof
end

