-- ==== Sys2Proof/Config.lean ====
section
/-! DEFINITION. What is fixed for the machine (00_scope.md R5), and its one free value, the random input. The
parameters that the spec marks OPEN or decides itself (STACK_CAPACITY, FONT, ROM_MAX) are in Machine/Params.lean. -/

namespace Sys2Proof.Config

/-- Size of the one memory, addresses 0x000 to 0xFFF (20_memory.md R50). -/
def memSize : Nat := 0x1000

/-- The last address of the memory. -/
def lastAddress : Nat := 0xFFF

/-- The last `pc` at which a fetch stays inside the memory (10_state.md R25). -/
def lastFetch : Nat := 0xFFE

/-- Program load address and reset `pc` (00_scope.md R5 `PROG_BASE`). -/
def progBase : Nat := 0x200

/-- FREE VALUE (DESIGN CHOICE, safe: log entry 3). The byte that the `k`-th draw of `Cxnn` finds on the random input
when the host has supplied none (42_alu.md R142, 93_implementation_defined.md U1: any value). It has no body, so
nothing can be proved of a particular draw. -/
opaque rnd : Nat → Byte

end Sys2Proof.Config
end

