-- ==== Sys2Proof/Machine/Params.lean ====
section
/-! DEFINITION. The parameters that the spec marks OPEN or decides itself, each with the spec's value (00_scope.md R5). -/

namespace Sys2Proof.Machine

/-- Default of the OPEN parameter STACK_CAPACITY, 12 to 16 (00_scope.md R5, decision D1). DESIGN CHOICE, unsafe for a
claim that starts from `State.reset`: log entry 1. -/
def defaultStackCapacity : Nat := 16

/-- Largest ROM that `Boot` accepts, 0xFFF - 0x200 bytes (70_reset_and_hazards.md R261). -/
def romMax : Nat := 3583

/-- Glyphs 0 to 3 of the default FONT (20_memory.md R55). -/
def fontGlyphs0 : List Byte :=
  [0xF0, 0x90, 0x90, 0x90, 0xF0, 0x20, 0x60, 0x20, 0x20, 0x70, 0xF0, 0x10, 0xF0, 0x80, 0xF0, 0xF0, 0x10, 0xF0, 0x10, 0xF0]

/-- Glyphs 4 to 7. -/
def fontGlyphs4 : List Byte :=
  [0x90, 0x90, 0xF0, 0x10, 0x10, 0xF0, 0x80, 0xF0, 0x10, 0xF0, 0xF0, 0x80, 0xF0, 0x90, 0xF0, 0xF0, 0x10, 0x20, 0x40, 0x40]

/-- Glyphs 8 to B. -/
def fontGlyphs8 : List Byte :=
  [0xF0, 0x90, 0xF0, 0x90, 0xF0, 0xF0, 0x90, 0xF0, 0x10, 0xF0, 0xF0, 0x90, 0xF0, 0x90, 0x90, 0xE0, 0x90, 0xE0, 0x90, 0xE0]

/-- Glyphs C to F. -/
def fontGlyphsC : List Byte :=
  [0xF0, 0x80, 0x80, 0x80, 0xF0, 0xE0, 0x90, 0x90, 0x90, 0xE0, 0xF0, 0x80, 0xF0, 0x80, 0xF0, 0xF0, 0x80, 0xF0, 0x80, 0x80]

/-- The 80 bytes of the default FONT. -/
def fontBytes : List Byte := fontGlyphs0 ++ fontGlyphs4 ++ fontGlyphs8 ++ fontGlyphsC

/-- Default of the OPEN parameter FONT: 16 glyphs of 5 bytes (20_memory.md R55, decision D14). PRESUMED by the spec from
general knowledge (G1), unsafe where the repository's table differs: log entry 2. -/
def defaultFont : Vector Byte 80 := ⟨fontBytes.toArray, rfl⟩

end Sys2Proof.Machine
end

