-- ==== Sys2Proof/Machine/Memory.lean ====
section
/-! DEFINITION. The one memory (20_memory.md R50 to R58): a list of (address, byte) pairs in canonical form, and the
byte and block accesses to it. A wider access is made of byte accesses, in ascending order (R58). -/

namespace Sys2Proof.Machine

/-- The memory: the bytes that differ from the reset contents. -/
abbrev Memory := List Host.Cell

/-- What an address that the list does not name reads as: the reset contents of 10_state.md R38 with an empty ROM, that
is the FONT at 0x000 to 0x04F and 0 elsewhere. -/
def Memory.unlisted (a : Nat) : Byte := fontBytes.getD a 0

/-- `MemRead(a, 1)` (20_memory.md R52). Called for `a <= 0xFFF` only: fetch and `checkRange` come first. -/
def Memory.read : Memory → Nat → Byte
  | [], a => Memory.unlisted a
  | (k, b) :: m, a => if k = a then b else Memory.read m a

/-- `MemWrite(a, 1, b)` (20_memory.md R52), keeping the canonical form. Called for `a <= 0xFFF` only. -/
def Memory.write : Memory → Nat → Byte → Memory
  | [], a, b => if b = Memory.unlisted a then [] else [(a, b)]
  | (k, c) :: m, a, b =>
    if k < a then (k, c) :: Memory.write m a b
    else if k = a then (if b = Memory.unlisted a then m else (a, b) :: m)
    else (if b = Memory.unlisted a then (k, c) :: m else (a, b) :: (k, c) :: m)

/-- Writes a block of bytes at `a`, `a + 1`, and so on. -/
def Memory.writeBlock (m : Memory) (a : Nat) : List Byte → Memory
  | [] => m
  | b :: bs => Memory.writeBlock (m.write a b) (a + 1) bs

/-- Reads the `n` bytes at `a` to `a + n - 1`. -/
def Memory.readBlock (m : Memory) (a : Nat) : Nat → List Byte
  | 0 => []
  | n + 1 => m.read a :: Memory.readBlock m (a + 1) n

/-- The canonical form: addresses strictly rising and inside the 4096 bytes, no entry equal to what its address reads as
when unlisted. -/
abbrev Memory.wf (m : Memory) : Prop :=
  m.Pairwise (fun p q => p.1 < q.1) ∧ ∀ p ∈ m, p.1 < Config.memSize ∧ p.2 ≠ Memory.unlisted p.1

end Sys2Proof.Machine
end

