-- ==== Sys2Proof/Machine/State.lean ====
section
/-! DEFINITION. The state of the machine as plain data (10_state.md R20), its faults and refusals, and the reset state. -/

namespace Sys2Proof.Machine

/-- The framebuffer, 32 rows of 64 one-bit pixels, row-major; `true` is a lit pixel, 1 (10_state.md R31). -/
abbrev Framebuffer := Vector (Vector Bool 64) 32

/-- The four atomic events of 00_scope.md R9. -/
inductive Event where
  /-- `Step`: the core executes at most one instruction. Its input `rnd` is taken from `State.rndIn`. -/
  | step
  /-- `Tick`: the timers count down (45_timers_keypad.md R206). -/
  | tick
  /-- `KeyWrite(k, b)`: the keypad latch write (45_timers_keypad.md R207). -/
  | keyWrite (k : Key) (b : Bool)
  /-- `Boot(rom)`: the only reset (70_reset_and_hazards.md R260). -/
  | boot (rom : List Byte)
  deriving DecidableEq, Repr

/-- The state: the ten elements of 10_state.md R20, then four fields of the model's own: the OPEN parameter FONT of the
instance (00_scope.md R5), and three that stand for the inputs of R9. -/
structure State where
  /-- General registers V0 to VF (10_state.md R21, R22). -/
  v : Vector Byte 16
  /-- Index register (10_state.md R23). -/
  i : Word
  /-- Program counter (10_state.md R24, R25). -/
  pc : Word
  /-- Stack pointer, an index into the call stack; 0 is the empty stack (10_state.md R26). -/
  sp : Nat
  /-- The call stack, `stack[0..STACK_CAPACITY-1]`; its length is STACK_CAPACITY (10_state.md R27, log entry 1). -/
  stack : List Word
  /-- Delay timer (10_state.md R28). -/
  dt : Byte
  /-- Sound timer (10_state.md R29). -/
  st : Byte
  /-- Memory (20_memory.md R50). -/
  mem : Memory
  /-- Framebuffer (10_state.md R31). -/
  fb : Framebuffer
  /-- Keypad latch; `true` is down (10_state.md R34). -/
  key : Vector Bool 16
  /-- MODEL's own: the instance's parameter FONT, which only a `Boot` reads and nothing writes (00_scope.md R5, log entry
  2). The bytes at 0x000 are memory like any other. -/
  font : Vector Byte 80
  /-- MODEL's own: the host events that come next, oldest first; when empty, the host invokes `Step` (log entry 4). -/
  pending : List Event
  /-- MODEL's own: the values the host has put on the input `rnd` for the coming draws, oldest first (log entry 3). -/
  rndIn : List Byte
  /-- MODEL's own: how many draws found no supplied value; it selects the next free value (log entry 3). -/
  rndDraws : Nat
  deriving DecidableEq, Repr

/-- The defects that a Step (or `Boot`) reports to the host instead of executing, with the information of
60_exceptions.md R221. Every one leaves the state as it was (R222), so the model stops where the hardware's Step ends:
safe (log entry 9). -/
inductive Fault where
  /-- Code 1, raised by every Step at fetch when `pc > 0xFFE` (R226). Safe. -/
  | pcOutOfRange (pc : Word)
  /-- Code 2, raised at decode by an undefined word of class E or F (R227). Safe. -/
  | illegalInstruction (w pc : Word)
  /-- Code 3, raised by CALL when the push would leave the valid range of `sp` (R228). Safe. -/
  | stackOverflow (pc w : Word)
  /-- Code 4, raised by RET when `sp = 0` (R229). Safe. -/
  | stackUnderflow (pc w : Word)
  /-- Code 5, raised by `Fx1E` when `I + v[x] > 0xFFF`; records the sum (R230). Safe. -/
  | indexOutOfRange (sum : Nat) (pc w : Word)
  /-- Code 6, raised by `Dxyn`, `Fx33`, `Fx55`, `Fx65` when the last address exceeds 0xFFF; records it (R231). Safe. -/
  | memoryOutOfRange (address : Nat) (pc w : Word)
  /-- Code 7, raised by `Ex9E` and `ExA1` when `v[x] > 15`; records `v[x]` (R232). Safe. -/
  | keyIndexOutOfRange (index : Byte) (pc w : Word)
  /-- Not a fault of a Step: `Boot` fails because the ROM is longer than ROM_MAX (R233). Safe. -/
  | romTooLarge (length : Nat)
  deriving DecidableEq, Repr

/-- Where the model gives no meaning. -/
inductive Refusal where
  /-- Raised by `exec` for an instruction that has no meaning yet; no arm of this model raises it. Safe. -/
  | notModelled (mnemonic : String)
  /-- Raised by RET when `sp` is at or above STACK_CAPACITY, outside the valid range of 10_state.md R26: no state of the
  spec's machine, and none that a step reaches from one (log entry 17). Safe. -/
  | spOutsideStack (sp : Nat)
  deriving DecidableEq, Repr

/-- How an instruction, an event or a step ends. -/
abbrev Outcome := Host.Outcome State Fault Refusal

/-- The blank framebuffer. -/
def blankFramebuffer : Framebuffer := Vector.replicate 32 (Vector.replicate 64 false)

/-- The state after `Boot` with an empty ROM and the default parameters (10_state.md R38, 70_reset_and_hazards.md R260). -/
def State.reset : State where
  v := Vector.replicate 16 0
  i := 0
  pc := 0x200
  sp := 0
  stack := List.replicate defaultStackCapacity 0
  dt := 0
  st := 0
  mem := []
  fb := blankFramebuffer
  key := Vector.replicate 16 false
  font := defaultFont
  pending := []
  rndIn := []
  rndDraws := 0

end Sys2Proof.Machine
end

