-- ==== Sys2Proof/Machine/Operands.lean ====
section
/-! DEFINITION. The operand forms (30_encoding.md R73): a register, an immediate used as it is, a 12-bit address, the
effective address `I + k`, a key number in a register, and the random input. -/

namespace Sys2Proof.Machine

/-- `v[k]` (00_scope.md R7). -/
def State.reg (s : State) (k : Reg) : Byte := s.v[k.val]

/-- `v[k] <- b`; no register is hardwired (10_state.md R21). -/
def State.setReg (s : State) (k : Reg) (b : Byte) : State := { s with v := s.v.set k.val b }

/-- A 12-bit address field as a 16-bit value, zero-extended (30_encoding.md R73). -/
def addressOperand (nnn : Addr) : Word := nnn.setWidth 16

/-- The one addressing mode: the byte at `I + k` (43_index_memory.md). -/
def State.effectiveAddress (s : State) (k : Nat) : Nat := s.i.toNat + k

/-- The flag of the key that a register value names, when it is a key number 0 to 15 (45_timers_keypad.md R203). -/
def State.keyNamed (s : State) (b : Byte) : Option Bool := s.key[b.toNat]?

/-- The smallest key number that is down (45_timers_keypad.md R205). -/
def State.firstKeyDown (s : State) : Option Key := (List.finRange 16).find? fun k => s.key[k.val]

/-- The value on the random input at this draw: the oldest the host has supplied, else a free value (42_alu.md R142). -/
def State.rndInput (s : State) : Byte :=
  match s.rndIn with
  | r :: _ => r
  | [] => Config.rnd s.rndDraws

/-- The input after the draw: `rnd` is fresh for each Step that executes `Cxnn` (42_alu.md R142). -/
def State.afterDraw (s : State) : State :=
  match s.rndIn with
  | _ :: rest => { s with rndIn := rest }
  | [] => { s with rndDraws := s.rndDraws + 1 }

end Sys2Proof.Machine
end

