-- ==== Sys2Proof/Machine/Flags.lean ====
section
/-! DEFINITION. The flag computations (10_state.md R22, 42_alu.md R143). The one flag is VF, general register 15; it is
written as a whole register, 0 or 1. -/

namespace Sys2Proof.Machine

/-- `b ? 1 : 0` (00_scope.md R7). -/
def flagByte (b : Bool) : Byte := if b then 1 else 0

/-- The carry of an addition: the sum exceeds 255 (42_alu.md R136, R143). -/
def carryFlag (a b : Byte) : Byte := flagByte (decide (255 < a.toNat + b.toNat))

/-- The subtraction flag: the minuend is strictly greater than the subtrahend (42_alu.md R137, R139, R143). -/
def greaterFlag (minuend subtrahend : Byte) : Byte := flagByte (decide (subtrahend.toNat < minuend.toNat))

/-- The bit that a right shift moves out: bit 0 (42_alu.md R138). -/
def shiftRightFlag (a : Byte) : Byte := a &&& 0x01

/-- The bit that a left shift moves out, as 0 or 1: bit 7 (42_alu.md R140). -/
def shiftLeftFlag (a : Byte) : Byte := flagByte (a &&& 0x80 != 0)

/-- `v[0xF] <- f`. -/
def State.setFlag (s : State) (f : Byte) : State := s.setReg vf f

end Sys2Proof.Machine
end

