-- ==== Sys2Proof/Machine/Ops.lean ====
section
/-! DEFINITION. The named operations that the meanings share: advancing `pc`, raising a fault, the range check, the call
stack, the block transfers and the sprite draw. -/

namespace Sys2Proof.Machine

/-- `pc <- a`. -/
def State.setPc (s : State) (a : Word) : State := { s with pc := a }

/-- `I <- a`. -/
def State.setI (s : State) (a : Word) : State := { s with i := a }

/-- `dt <- b`. -/
def State.setDt (s : State) (b : Byte) : State := { s with dt := b }

/-- `st <- b`. -/
def State.setSt (s : State) (b : Byte) : State := { s with st := b }

/-- Replaces the memory. -/
def State.setMem (s : State) (m : Memory) : State := { s with mem := m }

/-- Replaces the framebuffer. -/
def State.setFb (s : State) (f : Framebuffer) : State := { s with fb := f }

/-- `next`: the Cycle Driver's advance by one instruction width (00_scope.md R7, R11). -/
def State.advance (s : State) : State := s.setPc (s.pc + 2)

/-- `skip`: the advance by two instruction widths (00_scope.md R7, R11). -/
def State.skip (s : State) : State := s.setPc (s.pc + 4)

/-- Ends the instruction with `next`. -/
def retire (s : State) : Outcome := .next s.advance

/-- Ends the instruction with `skip` when the condition holds, else with `next`. -/
def retireSkipping (c : Bool) (s : State) : Outcome := .next (if c then s.skip else s.advance)

/-- Taking an exception (60_exceptions.md R222 to R224): the Step ends with the fault as its outcome, reported to the
host and to nothing else. No register saves the pc or a status, no mode changes, `pc` goes nowhere and no state element
changes; so there is nothing that a return could restore, and no return from exception exists. -/
def raise (f : Fault) : Outcome := .fault f

/-- The range check of 43_index_memory.md R163 for the `m` bytes at `I` to `I + m - 1`, before anything is done; none
when `m = 0`. `w` is the word recorded with the fault. -/
def checkRange (s : State) (m : Nat) (w : Word) (go : Outcome) : Outcome :=
  if 1 ≤ m ∧ Config.lastAddress < s.effectiveAddress m - 1 then
    raise (.memoryOutOfRange (s.effectiveAddress m - 1) s.pc w)
  else go

/-- `sp <- sp + 1; stack[sp] <- a` (40_control_flow.md R103), after the check that the push stays in the valid range. -/
def State.pushReturn (s : State) (a : Word) : State := { s with sp := s.sp + 1, stack := s.stack.set (s.sp + 1) a }

/-- `pc <- stack[sp]; sp <- sp - 1` (40_control_flow.md R101) for the entry `a` at `sp`. -/
def State.popReturn (s : State) (a : Word) : State := { s with pc := a, sp := s.sp - 1 }

/-- The decimal digits of a byte, hundreds, tens and ones (43_index_memory.md R164). -/
def bcdDigits (b : Byte) : List Byte :=
  [BitVec.ofNat 8 (b.toNat / 100), BitVec.ofNat 8 (b.toNat / 10 % 10), BitVec.ofNat 8 (b.toNat % 10)]

/-- `MemWrite(I + k, 1, bytes[k])` in ascending order. -/
def State.storeBlock (s : State) (bytes : List Byte) : State :=
  s.setMem (s.mem.writeBlock (s.effectiveAddress 0) bytes)

/-- The values of `v[0]` to `v[x]`. -/
def State.regBlock (s : State) (x : Reg) : List Byte := s.v.toList.take (x.val + 1)

/-- `v[k] <- MemRead(I + k, 1)` for `k` below `count`, in ascending order. -/
def State.loadRegs (s : State) : Nat → State
  | 0 => s
  | k + 1 => (s.loadRegs k).setReg (Fin.ofNat 16 k) (s.mem.read (s.effectiveAddress k))

/-- Pixel `fb[r][c]` (10_state.md R31). -/
def Framebuffer.pixel (f : Framebuffer) (r : Fin 32) (c : Fin 64) : Bool := f[r.val][c.val]

/-- `fb[r][c] <- fb[r][c] ^ bit`. -/
def Framebuffer.xorPixel (f : Framebuffer) (r : Fin 32) (c : Fin 64) (bit : Bool) : Framebuffer :=
  f.set r.val ((f[r.val]).set c.val ((f[r.val][c.val]) ^^ bit))

/-- What a draw has made so far: the framebuffer, and whether a lit pixel was erased. -/
structure Drawing where
  fb : Framebuffer
  hit : Bool
  deriving DecidableEq, Repr

/-- One pixel of a draw: XOR, and a collision when bit and pixel are both 1 (44_display.md R181). -/
def Drawing.plot (d : Drawing) (r : Fin 32) (c : Fin 64) (bit : Bool) : Drawing :=
  ⟨Framebuffer.xorPixel d.fb r c bit, d.hit || (bit && Framebuffer.pixel d.fb r c)⟩

/-- The column loop of 44_display.md R181 in row `r`, with `k` columns left of the 8: column `8 - k` takes bit `k - 1`
of the sprite byte, most significant bit first, and the loop stops at the right edge. -/
def drawColumns (b : Byte) (r : Fin 32) (x0 : Nat) : Nat → Drawing → Drawing
  | 0, d => d
  | k + 1, d =>
    if h : x0 + (7 - k) < 64 then drawColumns b r x0 k (d.plot r ⟨x0 + (7 - k), h⟩ (b.getLsbD k))
    else d

/-- The row loop of 44_display.md R181 over the sprite's bytes from row `y` down; it stops at the bottom edge. -/
def drawRows (x0 : Nat) : List Byte → Nat → Drawing → Drawing
  | [], _, d => d
  | b :: bs, y, d =>
    if h : y < 32 then drawRows x0 bs (y + 1) (drawColumns b ⟨y, h⟩ x0 8 d)
    else d

/-- The sprite: the `n` bytes at `I` to `I + n - 1`. -/
def State.sprite (s : State) (n : Nibble) : List Byte := s.mem.readBlock (s.effectiveAddress 0) n.toNat

end Sys2Proof.Machine
end

