-- ==== Sys2Proof/Machine/Alu.lean ====
section
/-! DEFINITION. Register load, arithmetic, logic, shift and random (42_alu.md). The effects of a flag-writing
instruction happen in the order its rule writes them: the flag first, then the result, computed from the registers as
they then stand (decision D9, log entry 7). -/

namespace Sys2Proof.Machine

/-- `6xnn` (R130). -/
def execLdImm (x : Reg) (nn : Byte) (s : State) : Outcome := retire (s.setReg x nn)

/-- `7xnn` (R131): wraps, no flag. -/
def execAddImm (x : Reg) (nn : Byte) (s : State) : Outcome := retire (s.setReg x (s.reg x + nn))

/-- `8xy0` (R132). -/
def execLdReg (x y : Reg) (s : State) : Outcome := retire (s.setReg x (s.reg y))

/-- `8xy1` (R133). -/
def execOrReg (x y : Reg) (s : State) : Outcome := retire (s.setReg x (s.reg x ||| s.reg y))

/-- `8xy2` (R134). -/
def execAndReg (x y : Reg) (s : State) : Outcome := retire (s.setReg x (s.reg x &&& s.reg y))

/-- `8xy3` (R135). -/
def execXorReg (x y : Reg) (s : State) : Outcome := retire (s.setReg x (s.reg x ^^^ s.reg y))

/-- `8xy4` (R136): the sum is formed once, before either write. -/
def execAddReg (x y : Reg) (s : State) : Outcome :=
  retire ((s.setFlag (carryFlag (s.reg x) (s.reg y))).setReg x (s.reg x + s.reg y))

/-- The second statement of `8xy5`: the registers are read again. -/
def subtractInto (x y : Reg) (s : State) : State := s.setReg x (s.reg x - s.reg y)

/-- `8xy5` (R137). -/
def execSubReg (x y : Reg) (s : State) : Outcome :=
  retire (subtractInto x y (s.setFlag (greaterFlag (s.reg x) (s.reg y))))

/-- The second statement of `8xy6`. -/
def shiftRightInto (x : Reg) (s : State) : State := s.setReg x (s.reg x >>> 1)

/-- `8xy6` (R138): the operand is `v[x]`, not `v[y]`. -/
def execShr (x : Reg) (s : State) : Outcome := retire (shiftRightInto x (s.setFlag (shiftRightFlag (s.reg x))))

/-- The second statement of `8xy7`. -/
def subtractReversedInto (x y : Reg) (s : State) : State := s.setReg x (s.reg y - s.reg x)

/-- `8xy7` (R139). -/
def execSubn (x y : Reg) (s : State) : Outcome :=
  retire (subtractReversedInto x y (s.setFlag (greaterFlag (s.reg y) (s.reg x))))

/-- The second statement of `8xyE`. -/
def shiftLeftInto (x : Reg) (s : State) : State := s.setReg x (s.reg x <<< 1)

/-- `8xyE` (R140): the operand is `v[x]`, not `v[y]`. -/
def execShl (x : Reg) (s : State) : Outcome := retire (shiftLeftInto x (s.setFlag (shiftLeftFlag (s.reg x))))

/-- `8xy8` (R141): the defined no-op. -/
def execAlunop8 (s : State) : Outcome := retire s

/-- `8xy9` (R141). -/
def execAlunop9 (s : State) : Outcome := retire s

/-- `8xyA` (R141). -/
def execAlunopA (s : State) : Outcome := retire s

/-- `8xyB` (R141). -/
def execAlunopB (s : State) : Outcome := retire s

/-- `8xyC` (R141). -/
def execAlunopC (s : State) : Outcome := retire s

/-- `8xyD` (R141). -/
def execAlunopD (s : State) : Outcome := retire s

/-- `8xyF` (R141). -/
def execAlunopF (s : State) : Outcome := retire s

/-- `Cxnn` (R142). -/
def execRnd (x : Reg) (nn : Byte) (s : State) : Outcome := retire (s.afterDraw.setReg x (s.rndInput &&& nn))

end Sys2Proof.Machine
end

