-- ==== Sys2Proof/Machine/Control.lean ====
section
/-! DEFINITION. The instructions that write `pc` explicitly (40_control_flow.md). `pc` is the address of the instruction
itself until its rule writes it. -/

namespace Sys2Proof.Machine

/-- `0nnn` (R100): a plain jump, nothing is pushed. -/
def execSys (nnn : Addr) (s : State) : Outcome := .next (s.setPc (addressOperand nnn))

/-- `00EE` (R101). The entry itself is not cleared. A state whose `sp` names no entry of the stack is none of the
machine's (10_state.md R26) and is refused. -/
def execRet (s : State) : Outcome :=
  if s.sp = 0 then raise (.stackUnderflow s.pc (encodeWord .ret))
  else match s.stack[s.sp]? with
    | some a => .next (s.popReturn a)
    | none => .refused (.spOutsideStack s.sp)

/-- `1nnn` (R102). -/
def execJp (nnn : Addr) (s : State) : Outcome := .next (s.setPc (addressOperand nnn))

/-- `2nnn` (R103): pushes the address after the call, unless the push would leave the valid range of `sp`. -/
def execCall (nnn : Addr) (s : State) : Outcome :=
  if s.sp + 1 < s.stack.length then .next ((s.pushReturn (s.pc + 2)).setPc (addressOperand nnn))
  else raise (.stackOverflow s.pc (encodeWord (.call nnn)))

/-- `Bnnn` (R104): always `v[0]`, added to the target in 16 bits. -/
def execJpV0 (nnn : Addr) (s : State) : Outcome := .next (s.setPc ((s.reg 0).setWidth 16 + addressOperand nnn))

end Sys2Proof.Machine
end

