-- ==== Sys2Proof/Machine/Display.lean ====
section
/-! DEFINITION. The display instructions (44_display.md). -/

namespace Sys2Proof.Machine

/-- `00E0` (R180). -/
def execCls (s : State) : Outcome := retire (s.setFb blankFramebuffer)

/-- What `Dxyn` draws from the state on entry: the origin is reduced once and pixels clip (R181). -/
def State.drawSprite (s : State) (x y : Reg) (n : Nibble) : Drawing :=
  drawRows ((s.reg x).toNat % 64) (s.sprite n) ((s.reg y).toNat % 32) ⟨s.fb, false⟩

/-- The two effects of a draw: VF is 0, or 1 if a lit pixel was erased, and the framebuffer is the drawn one. -/
def State.commitDrawing (s : State) (d : Drawing) : State := (s.setFlag (flagByte d.hit)).setFb d.fb

/-- `Dxyn` (R181): the range check covers all `n` bytes and comes before VF is cleared; the origin is taken before VF is
cleared (decision D10, log entry 8). -/
def execDrw (x y : Reg) (n : Nibble) (s : State) : Outcome :=
  checkRange s n.toNat (encodeWord (.drw x y n)) (retire (s.commitDrawing (s.drawSprite x y n)))

end Sys2Proof.Machine
end

