-- ==== Sys2Proof/Machine/Index.lean ====
section
/-! DEFINITION. The index register and the memory transfers (43_index_memory.md). -/

namespace Sys2Proof.Machine

/-- `Annn` (R160). -/
def execLdI (nnn : Addr) (s : State) : Outcome := retire (s.setI (addressOperand nnn))

/-- `Fx1E` (R161): reports a sum above 0xFFF and leaves `I` as it was; no flag. -/
def execAddI (x : Reg) (s : State) : Outcome :=
  if Config.lastAddress < s.i.toNat + (s.reg x).toNat then
    raise (.indexOutOfRange (s.i.toNat + (s.reg x).toNat) s.pc (encodeWord (.addI x)))
  else retire (s.setI (s.i + (s.reg x).setWidth 16))

/-- `Fx29` (R162): five times the whole byte. -/
def execLdFont (x : Reg) (s : State) : Outcome := retire (s.setI (5 * (s.reg x).setWidth 16))

/-- `Fx33` (R164). -/
def execLdBcd (x : Reg) (s : State) : Outcome :=
  checkRange s 3 (encodeWord (.ldBcd x)) (retire (s.storeBlock (bcdDigits (s.reg x))))

/-- `Fx55` (R165). -/
def execStore (x : Reg) (s : State) : Outcome :=
  checkRange s (x.val + 1) (encodeWord (.store x)) (retire (s.storeBlock (s.regBlock x)))

/-- `Fx65` (R166). -/
def execLoad (x : Reg) (s : State) : Outcome :=
  checkRange s (x.val + 1) (encodeWord (.load x)) (retire (s.loadRegs (x.val + 1)))

end Sys2Proof.Machine
end

