-- ==== Sys2Proof/Machine/Skips.lean ====
section
/-! DEFINITION. The register-compare skips (41_skips.md). -/

namespace Sys2Proof.Machine

/-- `3xnn` (R120). -/
def execSeImm (x : Reg) (nn : Byte) (s : State) : Outcome := retireSkipping (s.reg x == nn) s

/-- `4xnn` (R121). -/
def execSneImm (x : Reg) (nn : Byte) (s : State) : Outcome := retireSkipping (s.reg x != nn) s

/-- `5xy0` (R122). -/
def execSeReg (x y : Reg) (s : State) : Outcome := retireSkipping (s.reg x == s.reg y) s

/-- `9xy0` (R123). -/
def execSneReg (x y : Reg) (s : State) : Outcome := retireSkipping (s.reg x != s.reg y) s

end Sys2Proof.Machine
end

