-- ==== Sys2Proof/Machine/Timers.lean ====
section
/-! DEFINITION. Timer transfers, keypad skips and the key-wait (45_timers_keypad.md). -/

namespace Sys2Proof.Machine

/-- `Fx07` (R200). -/
def execLdFromDt (x : Reg) (s : State) : Outcome := retire (s.setReg x s.dt)

/-- `Fx15` (R201). -/
def execLdToDt (x : Reg) (s : State) : Outcome := retire (s.setDt (s.reg x))

/-- `Fx18` (R202). -/
def execLdToSt (x : Reg) (s : State) : Outcome := retire (s.setSt (s.reg x))

/-- `Ex9E` (R203): samples the latch once; a value that is no key number is reported. -/
def execSkp (x : Reg) (s : State) : Outcome :=
  match s.keyNamed (s.reg x) with
  | some down => retireSkipping down s
  | none => raise (.keyIndexOutOfRange (s.reg x) s.pc (encodeWord (.skp x)))

/-- `ExA1` (R204). -/
def execSknp (x : Reg) (s : State) : Outcome :=
  match s.keyNamed (s.reg x) with
  | some down => retireSkipping (!down) s
  | none => raise (.keyIndexOutOfRange (s.reg x) s.pc (encodeWord (.sknp x)))

/-- `Fx0A` (R205): one sample of the latch. With no key down nothing is written and `pc` still points at the instruction,
which is the spec's outcome WaitKey (log entry 5). -/
def execLdKey (x : Reg) (s : State) : Outcome :=
  match s.firstKeyDown with
  | some k => retire (s.setReg x (BitVec.ofNat 8 k.val))
  | none => .next s

end Sys2Proof.Machine
end

