-- ==== Sys2Proof/Machine/Events.lean ====
section
/-! DEFINITION. The three events that do not execute an instruction: `Tick`, `KeyWrite` and `Boot` (00_scope.md R9). -/

namespace Sys2Proof.Machine

/-- One count of a timer: toward 0, never below it (45_timers_keypad.md R206). -/
def countDown (t : Byte) : Byte := if t = 0 then 0 else t - 1

/-- `Tick` (45_timers_keypad.md R206). -/
def State.tick (s : State) : State := { s with dt := countDown s.dt, st := countDown s.st }

/-- `KeyWrite(k, b)` (45_timers_keypad.md R207). -/
def State.keyWrite (s : State) (k : Key) (b : Bool) : State := { s with key := s.key.set k.val b }

/-- The state that `Boot` builds from nothing, for an instance with the given capacity and FONT (70_reset_and_hazards.md
R260): memory zeroed, then the FONT at 0x000, then the ROM at 0x200. -/
def State.booted (capacity : Nat) (font : Vector Byte 80) (rom : List Byte) : State :=
  { State.reset with
    stack := List.replicate capacity 0
    mem := (Memory.writeBlock [] 0 font.toList).writeBlock Config.progBase rom
    font := font }

/-- `Boot(rom)` with the size check of 70_reset_and_hazards.md R261: a ROM that is too large leaves no machine at all. -/
def boot (capacity : Nat) (font : Vector Byte 80) (rom : List Byte) : Outcome :=
  if romMax < rom.length then raise (.romTooLarge rom.length) else .next (State.booted capacity font rom)

/-- `Boot(rom)` as an event during a session: a fresh state that keeps nothing of the old one (70_reset_and_hazards.md
R260) but the instance's parameters, capacity and FONT, and what the host has in hand, its events and random values (log
entry 21). -/
def State.reboot (s : State) (rom : List Byte) : Outcome :=
  match boot s.stack.length s.font rom with
  | .next t => .next { t with pending := s.pending, rndIn := s.rndIn, rndDraws := s.rndDraws }
  | .fault f => .fault f
  | .refused r => .refused r

/-- The read port of the renderer: 64×32 bytes 0 or 1, row-major (10_state.md R33). -/
def State.framebufferOut (s : State) : List Byte := s.fb.toList.flatMap fun row => row.toList.map flagByte

/-- The read port of the delay timer (10_state.md R30). -/
def State.dtOut (s : State) : Byte := s.dt

/-- The read port of the sound timer (10_state.md R30). -/
def State.stOut (s : State) : Byte := s.st

/-- The condition that the sound collaborator watches, `st != 0` (10_state.md R30). -/
def State.soundOn (s : State) : Bool := s.st != 0

end Sys2Proof.Machine
end

