-- ==== Sys2Proof/Machine/Fetch.lean ====
section
/-! DEFINITION. Fetch and decode, steps 1 to 4 of the Step algorithm (00_scope.md R10). -/

namespace Sys2Proof.Machine

/-- The two bytes at `pc` and `pc + 1`; `pc` may be odd (20_memory.md R57). -/
def State.fetchBytes (s : State) : List Byte := s.mem.readBlock s.pc.toNat 2

/-- `MemRead(pc, 2)`, big-endian (20_memory.md R53). -/
def State.fetchWord (s : State) : Word := wordOfBytes (s.mem.read s.pc.toNat) (s.mem.read (s.pc.toNat + 1))

/-- The instruction at `pc`, or the fault of the fetch (60_exceptions.md R226) or of the decode (R227), in that order
(R225). -/
def State.fetch (s : State) : Except Fault Instr :=
  if Config.lastFetch < s.pc.toNat then .error (.pcOutOfRange s.pc)
  else match decode s.fetchBytes with
    | .ok (i, _) => .ok i
    | .error _ => .error (.illegalInstruction s.fetchWord s.pc)

end Sys2Proof.Machine
end

