-- ==== Sys2Proof/Machine/Cycle.lean ====
section
/-! DEFINITION. The Cycle Driver (00_scope.md R10, R11) and what happens next in the machine (R9). -/

namespace Sys2Proof.Machine

/-- `Step`: fetches, decodes and executes at most one instruction. -/
def cycle (s : State) : Outcome :=
  match s.fetch with
  | .error f => raise f
  | .ok i => exec i s

/-- One atomic event. -/
def runEvent (e : Event) (s : State) : Outcome :=
  match e with
  | .step => cycle s
  | .tick => .next s.tick
  | .keyWrite k b => .next (s.keyWrite k b)
  | .boot rom => s.reboot rom

/-- The next event of the machine: the oldest that the host has waiting, and `Step` when none is (log entry 4). -/
def nextEvent (s : State) : Outcome :=
  match s.pending with
  | [] => cycle s
  | e :: rest => runEvent e { s with pending := rest }

/-- The three outcomes of a Step (00_scope.md R10). -/
inductive StepResult where
  | retired (t : State)
  | waitKey
  | faulted (f : Fault)
  | refused (r : Refusal)
  deriving DecidableEq, Repr

/-- The instruction at `pc` is `Fx0A` and no key is down (00_scope.md R10, 45_timers_keypad.md R205). -/
def State.waitsForKey (s : State) : Bool :=
  match s.fetch with
  | .ok (.ldKey _) => s.firstKeyDown.isNone
  | _ => false

/-- The outcome of a Step as 00_scope.md R10 names it. -/
def State.stepResult (s : State) : StepResult :=
  match cycle s with
  | .next t => if s.waitsForKey then .waitKey else .retired t
  | .fault f => .faulted f
  | .refused r => .refused r

end Sys2Proof.Machine
end

