-- ==== Sys2Proof/Machine/Step.lean ====
section
/-! DEFINITION. One step of the machine, and a state in which the next step runs a given instruction. -/

namespace Sys2Proof.Machine

/-- One step: the next atomic event of the machine (00_scope.md R9), a `Step` of the core when the host has nothing
else waiting. -/
def step (s : State) : Host.Outcome State Fault Refusal := nextEvent s

/-- `s` with the instruction word `w` (its bits above `nbits` zero) stored at `pc` and `pc + 1`, high byte first, and no
host event before the next `Step`. A `pc` from which no fetch is possible is replaced by the program load address. -/
def State.withFetchWord (s : State) (nbits w : Nat) : State :=
  let pc : Word := if Config.lastFetch < s.pc.toNat then 0x200 else s.pc
  let word : Word := BitVec.ofNat 16 (w % 2 ^ nbits)
  { s with
    pc := pc
    mem := (s.mem.write pc.toNat (highByte word)).write (pc.toNat + 1) (lowByte word)
    pending := [] }

end Sys2Proof.Machine
end

