-- ==== Sys2Proof/Machine/FaultInfo.lean ====
section
/-! DEFINITION. What the host reads from a fault (60_exceptions.md R221): the code, the `pc` of the Step and the fetched
word. The codes and the recorded information are the spec's own choice (decisions D2, D26). -/

namespace Sys2Proof.Machine

/-- The numeric code of 60_exceptions.md R221; RomTooLarge is no fault of a Step and has none. -/
def Fault.code : Fault → Option Nat
  | .pcOutOfRange _ => some 1
  | .illegalInstruction _ _ => some 2
  | .stackOverflow _ _ => some 3
  | .stackUnderflow _ _ => some 4
  | .indexOutOfRange _ _ _ => some 5
  | .memoryOutOfRange _ _ _ => some 6
  | .keyIndexOutOfRange _ _ _ => some 7
  | .romTooLarge _ => none

/-- The `pc` of the Step that faulted. -/
def Fault.recordedPc : Fault → Option Word
  | .pcOutOfRange pc => some pc
  | .illegalInstruction _ pc => some pc
  | .stackOverflow pc _ => some pc
  | .stackUnderflow pc _ => some pc
  | .indexOutOfRange _ pc _ => some pc
  | .memoryOutOfRange _ pc _ => some pc
  | .keyIndexOutOfRange _ pc _ => some pc
  | .romTooLarge _ => none

/-- The fetched word, where one was fetched. -/
def Fault.recordedWord : Fault → Option Word
  | .pcOutOfRange _ => none
  | .illegalInstruction w _ => some w
  | .stackOverflow _ w => some w
  | .stackUnderflow _ w => some w
  | .indexOutOfRange _ _ w => some w
  | .memoryOutOfRange _ _ w => some w
  | .keyIndexOutOfRange _ _ w => some w
  | .romTooLarge _ => none

end Sys2Proof.Machine
end

