-- ==== Sys2Proof/Safety.lean ====
section
/-! DEFINITION. The terms in which claims are made: the invariant of the state, the elements of the state with the frame
rule, and what a run of steps is. -/

namespace Sys2Proof.Machine

/-- What every state of the spec's machine satisfies: the memory is in canonical form, `I <= 0xFFF` (10_state.md R23),
`sp` is an index into the stack (R26), and the capacity is one of those that 00_scope.md R5 permits. -/
structure State.Inv (s : State) : Prop where
  memory : s.mem.wf
  index : s.i.toNat ≤ 0xFFF
  stackPointer : s.sp < s.stack.length
  capacity : 12 ≤ s.stack.length ∧ s.stack.length ≤ 16

/-- The bounds of 10_state.md R25: nothing writes `pc` above 0x10FE, nor a stack entry above 0x1000. -/
structure State.PcBounds (s : State) : Prop where
  pc : s.pc.toNat ≤ 0x10FE
  stack : ∀ a ∈ s.stack, a.toNat ≤ 0x1000

/-- The elements of the state, one for each register, stack entry, memory byte, pixel and key (10_state.md R20), and the
model's own four. -/
inductive Element where
  | v (k : Reg)
  | i
  | pc
  | sp
  | stack (k : Nat)
  | dt
  | st
  | mem (a : Nat)
  | fb (r : Fin 32) (c : Fin 64)
  | key (k : Key)
  | font
  | pending
  | rndIn
  | rndDraws
  deriving DecidableEq, Repr

/-- The element reads the same in both states. For a stack entry that includes whether it exists, so that all of them
together fix the capacity. -/
def Element.same (s t : State) : Element → Prop
  | .v k => t.reg k = s.reg k
  | .i => t.i = s.i
  | .pc => t.pc = s.pc
  | .sp => t.sp = s.sp
  | .stack k => t.stack[k]? = s.stack[k]?
  | .dt => t.dt = s.dt
  | .st => t.st = s.st
  | .mem a => t.mem.read a = s.mem.read a
  | .fb r c => Framebuffer.pixel t.fb r c = Framebuffer.pixel s.fb r c
  | .key k => t.key[k.val] = s.key[k.val]
  | .font => t.font = s.font
  | .pending => t.pending = s.pending
  | .rndIn => t.rndIn = s.rndIn
  | .rndDraws => t.rndDraws = s.rndDraws

/-- Every element outside `changed` reads in `t` as it read in `s`: every register, stack entry, timer, memory byte,
pixel and key (00_scope.md R8). -/
def OnlyChanges (s t : State) (changed : Element → Prop) : Prop := ∀ e : Element, ¬ changed e → e.same s t

/-- The elements that the pseudocode of an instruction's rule writes, in the state it executes in. The stored bytes are
at the effective addresses of the meanings, the drawn pixels inside the sprite's rectangle. -/
def writes (s : State) : Instr → Element → Prop
  | .cls, e => e = .pc ∨ ∃ r c, e = .fb r c
  | .ret, e => e = .pc ∨ e = .sp
  | .sys _, e => e = .pc
  | .jp _, e => e = .pc
  | .call _, e => e = .pc ∨ e = .sp ∨ e = .stack (s.sp + 1)
  | .seImm _ _, e => e = .pc
  | .sneImm _ _, e => e = .pc
  | .seReg _ _, e => e = .pc
  | .ldImm x _, e => e = .pc ∨ e = .v x
  | .addImm x _, e => e = .pc ∨ e = .v x
  | .ldReg x _, e => e = .pc ∨ e = .v x
  | .orReg x _, e => e = .pc ∨ e = .v x
  | .andReg x _, e => e = .pc ∨ e = .v x
  | .xorReg x _, e => e = .pc ∨ e = .v x
  | .addReg x _, e => e = .pc ∨ e = .v x ∨ e = .v 15
  | .subReg x _, e => e = .pc ∨ e = .v x ∨ e = .v 15
  | .shr x, e => e = .pc ∨ e = .v x ∨ e = .v 15
  | .subn x _, e => e = .pc ∨ e = .v x ∨ e = .v 15
  | .shl x, e => e = .pc ∨ e = .v x ∨ e = .v 15
  | .sneReg _ _, e => e = .pc
  | .ldI _, e => e = .pc ∨ e = .i
  | .jpV0 _, e => e = .pc
  | .rnd x _, e => e = .pc ∨ e = .v x ∨ e = .rndIn ∨ e = .rndDraws
  | .drw x y n, e => e = .pc ∨ e = .v 15 ∨ ∃ r c, e = .fb r c ∧
      (s.reg y).toNat % 32 ≤ r.val ∧ r.val < (s.reg y).toNat % 32 + n.toNat ∧
      (s.reg x).toNat % 64 ≤ c.val ∧ c.val < (s.reg x).toNat % 64 + 8
  | .skp _, e => e = .pc
  | .sknp _, e => e = .pc
  | .ldFromDt x, e => e = .pc ∨ e = .v x
  | .ldKey x, e => e = .pc ∨ e = .v x
  | .ldToDt _, e => e = .pc ∨ e = .dt
  | .ldToSt _, e => e = .pc ∨ e = .st
  | .addI _, e => e = .pc ∨ e = .i
  | .ldFont _, e => e = .pc ∨ e = .i
  | .ldBcd _, e => e = .pc ∨ ∃ k, k < 3 ∧ e = .mem (s.effectiveAddress k)
  | .store x, e => e = .pc ∨ ∃ k, k < x.val + 1 ∧ e = .mem (s.effectiveAddress k)
  | .load x, e => e = .pc ∨ ∃ k, k ≤ x ∧ e = .v k
  | .alunop8, e => e = .pc
  | .alunop9, e => e = .pc
  | .alunopA, e => e = .pc
  | .alunopB, e => e = .pc
  | .alunopC, e => e = .pc
  | .alunopD, e => e = .pc
  | .alunopF, e => e = .pc

/-- Every word with this pattern under this mask decodes to the instruction built from its fields. -/
def DecodesAs (mask pattern : Word) (build : Word → Instr) : Prop :=
  ∀ w : Word, w &&& mask = pattern → decodeWord w = .ok (build w)

/-- The bit that a sprite drawn by `Dxyn` from this state has at a pixel of the grid: 0 outside the 8 columns and `n` rows
from the origin, inside them the bit of the byte at `I + row`, most significant bit first (44_display.md R181). The origin
wraps, the pixels do not. -/
def State.spritePixel (s : State) (x y : Reg) (n : Nibble) (r : Fin 32) (c : Fin 64) : Bool :=
  decide ((s.reg y).toNat % 32 ≤ r.val ∧ r.val < (s.reg y).toNat % 32 + n.toNat) &&
  decide ((s.reg x).toNat % 64 ≤ c.val ∧ c.val < (s.reg x).toNat % 64 + 8) &&
  (s.mem.read (s.effectiveAddress (r.val - (s.reg y).toNat % 32))).getLsbD (7 - (c.val - (s.reg x).toNat % 64))

/-- `n` steps of the machine from `s` run to a next state: no fault and no refusal on the way. -/
def State.runsFor (s : State) (n : Nat) : Prop := ∃ t, Host.Core.run Sys2Proof.core n s = .next t

/-- The one quiescent state that the instruction set offers: the instruction at `pc` is a `1nnn` that jumps to itself
(70_reset_and_hazards.md R266). To call it finished is the model's definition (decision D23, log entry 24). -/
def State.finished (s : State) : Prop := ∃ nnn : Addr, s.fetch = .ok (.jp nnn) ∧ addressOperand nnn = s.pc

end Sys2Proof.Machine
end

