-- ==== Sys2Proof/Certificates/Slice0/Obligations.lean ====
section
/-! DEFINITION. The statements for the provers. Each docstring names the rule or the section of spec/ that it formalises,
and the log entry where a clause rests on a choice. `OnlyChanges s t p` is the frame: every register, stack entry, timer,
memory byte, pixel, key and host input outside `p` reads in `t` as it read in `s`. The frame rule R8 is the spec's own
decision (D19, log entry 20), so the frames of all 42 instructions stand in `ExecChangesOnlyWhatItsRuleWrites` and in the
statements that rest on a decision anyway; the statements of a rule as the source gives it hold what that rule says of
results, `pc` and VF. -/

open Sys2Proof Sys2Proof.Machine

/-- 30_encoding.md, all operands of all instructions: decode after encode gives the instruction back and leaves the bytes
that follow it. -/
def Obligations.DecodeAfterEncode : Prop :=
  ∀ (i : Instr) (rest : List Byte), i.wf = true → decode (encode i ++ rest) = .ok (i, rest)

/-- 30_encoding.md section 4 (decision D8, log entry 15): encode after decode gives the word back on every bit that the
decoder reads, and a decoded instruction is well formed. -/
def Obligations.EncodeAfterDecode : Prop :=
  ∀ (w : Word) (i : Instr), decodeWord w = .ok i → i.wf = true ∧ encodeWord i = w &&& decodedBits i

/-- 30_encoding.md R76: the two-level dispatch is the opcode map with its rows tried in the order listed. -/
def Obligations.DispatchIsTheOpcodeMap : Prop :=
  ∀ w : Word, decodeByMap w = (decodeWord w).toOption

/-- 30_encoding.md section 4 (decision D7, log entry 14): the words that are no instruction are those of class E and F
whose low byte is not defined. -/
def Obligations.IllegalWordsAreUndefinedLowBytes : Prop :=
  ∀ w : Word, (∃ e, decodeWord w = .error e) ↔
    (w.toNat / 4096 = 14 ∧ w.toNat % 256 ∉ [0x9E, 0xA1]) ∨
    (w.toNat / 4096 = 15 ∧ w.toNat % 256 ∉ [0x07, 0x0A, 0x15, 0x18, 0x1E, 0x29, 0x33, 0x55, 0x65])

/-- Words written out from the encodings of 30_encoding.md, one of each family, decode to what they stand for, and the
corner words of class 0 to their own instruction. That 9125, whose low nibble is not the 0 that the pattern `9xy0` prints, is
SNE is the spec's decision D8 (log entry 15). -/
def Obligations.KnownWordsDecode : Prop :=
  decode [0x6A, 0x02] = .ok (.ldImm 10 0x02, []) ∧
  decode [0xD1, 0x25] = .ok (.drw 1 2 5, []) ∧
  decode [0x23, 0x00] = .ok (.call 0x300, []) ∧
  decode [0x91, 0x25] = .ok (.sneReg 1 2, []) ∧
  decode [0xF2, 0x65] = .ok (.load 2, []) ∧
  decode [0xE2, 0xA1] = .ok (.sknp 2, []) ∧
  decode [0x00, 0xE0] = .ok (.cls, []) ∧
  decode [0x00, 0xE1] = .ok (.sys 0x0E1, []) ∧
  decode [0x81, 0x2F] = .ok (.alunopF, [])

/-- 00_scope.md section 5. A step of the model is a Step of the core when no host event is waiting, and else the oldest event,
taken off the queue, wherever `pc` stands and whatever the bytes there are (the queue is the model's own, log entry 4). And
the Step algorithm: when the two bytes at `pc` decode to an instruction, a Step is exec of that instruction. -/
def Obligations.StepRunsTheDecodedInstruction : Prop :=
  ∀ s : State,
    (s.pending = [] → step s = runEvent .step s) ∧
    (∀ e rest, s.pending = e :: rest → step s = runEvent e { s with pending := rest }) ∧
    ∀ i : Instr, s.pc.toNat ≤ 0xFFE →
      decode [s.mem.read s.pc.toNat, s.mem.read (s.pc.toNat + 1)] = .ok (i, []) →
      (s.pending = [] → step s = exec i s) ∧
      (∀ rest, s.pending = .step :: rest → step s = exec i { s with pending := rest })

/-- 20_memory.md R53: the fetched word is big-endian; the byte at the lower address holds the class and `x`, the byte at the
higher address is `nn`. -/
def Obligations.FetchIsBigEndian : Prop :=
  ∀ s : State,
    s.fetchWord.toNat = (s.mem.read s.pc.toNat).toNat * 256 + (s.mem.read (s.pc.toNat + 1)).toNat ∧
    (classOf s.fetchWord).toNat = (s.mem.read s.pc.toNat).toNat / 16 ∧
    (xOf s.fetchWord).val = (s.mem.read s.pc.toNat).toNat % 16 ∧
    (yOf s.fetchWord).val = (s.mem.read (s.pc.toNat + 1)).toNat / 16 ∧
    (nOf s.fetchWord).toNat = (s.mem.read (s.pc.toNat + 1)).toNat % 16 ∧
    nnOf s.fetchWord = s.mem.read (s.pc.toNat + 1)

/-- 60_exceptions.md sections 1 and 2 (decisions D3, D7, log entries 10 and 14): a step from `pc > 0xFFE` faults before it
reads anything, and a step at an undefined word faults. The information recorded is decision D26, log entry 22. -/
def Obligations.FetchAndDecodeFaults : Prop :=
  ∀ s : State, s.pending = [] →
    (0xFFE < s.pc.toNat → step s = .fault (.pcOutOfRange s.pc)) ∧
    (∀ e, s.pc.toNat ≤ 0xFFE → decodeWord s.fetchWord = .error e →
      step s = .fault (.illegalInstruction s.fetchWord s.pc))

/-- 10_state.md R38: what `Boot` leaves, for every capacity, FONT and ROM. -/
def Obligations.BootGivesTheResetValues : Prop :=
  ∀ (capacity : Nat) (font : Vector Byte 80) (rom : List Byte), rom.length ≤ 3583 →
    ∃ t, boot capacity font rom = .next t ∧
      (∀ k : Reg, t.reg k = 0) ∧ t.i = 0 ∧ t.pc = 0x200 ∧ t.sp = 0 ∧
      t.stack.length = capacity ∧ (∀ a ∈ t.stack, a = 0) ∧ t.dt = 0 ∧ t.st = 0 ∧
      (∀ r c, Framebuffer.pixel t.fb r c = false) ∧ (∀ k : Key, t.key[k.val] = false) ∧
      (∀ (a : Nat) (h : a < 80), t.mem.read a = font[a]) ∧
      (∀ a : Nat, 0x050 ≤ a → a ≤ 0x1FF → t.mem.read a = 0) ∧
      (∀ (k : Nat) (h : k < rom.length), t.mem.read (0x200 + k) = rom[k]) ∧
      (∀ a : Nat, 0x200 + rom.length ≤ a → a ≤ 0xFFF → t.mem.read a = 0)

/-- 70_reset_and_hazards.md section 1 (decision D15, log entry 16): `Boot` fails exactly when the ROM is longer than 3583
bytes. -/
def Obligations.BootRejectsExactlyTheLargeRoms : Prop :=
  ∀ (capacity : Nat) (font : Vector Byte 80) (rom : List Byte),
    (3583 < rom.length ↔ ∃ f, boot capacity font rom = .fault f) ∧
    (∀ f, boot capacity font rom = .fault f → f = .romTooLarge rom.length)

/-- 70_reset_and_hazards.md section 1: a `Boot` event builds from nothing what `boot` builds for the instance's capacity and
FONT and that ROM, and keeps nothing of the old state; that the host's events, random values and draw counter stay is the
model's choice (log entry 21). A ROM of more than 3583 bytes makes the step fault (decision D15, log entry 16). -/
def Obligations.RebootForgetsTheOldState : Prop :=
  (∀ (s : State) (rom : List Byte) (rest : List Event), s.pending = .boot rom :: rest →
    (rom.length ≤ 3583 → ∃ t, boot s.stack.length s.font rom = .next t ∧
      step s = .next { t with pending := rest, rndIn := s.rndIn, rndDraws := s.rndDraws }) ∧
    (3583 < rom.length → step s = .fault (.romTooLarge rom.length))) ∧
  (∀ (s₁ s₂ : State) (rom : List Byte) (rest : List Event),
    s₁.pending = .boot rom :: rest → s₂.pending = .boot rom :: rest → s₁.stack.length = s₂.stack.length →
    s₁.font = s₂.font → s₁.rndIn = s₂.rndIn → s₁.rndDraws = s₂.rndDraws → step s₁ = step s₂)

/-- The reset state satisfies both invariants of the model. -/
def Obligations.ResetSatisfiesTheInvariants : Prop := State.reset.Inv ∧ State.reset.PcBounds

/-- Every step keeps the invariant: canonical memory, `I <= 0xFFF`, `sp` inside the stack, a permitted capacity
(10_state.md sections 4 and 6; decisions D1, D4, D18, log entries 1, 11, 17). -/
def Obligations.StepKeepsTheInvariant : Prop :=
  ∀ s t : State, s.Inv → step s = .next t → t.Inv

/-- Every step keeps the bounds of `pc` and of the stack entries (10_state.md section 5; decision D3, log entry 10). -/
def Obligations.StepKeepsThePcBounds : Prop :=
  ∀ s t : State, s.PcBounds → step s = .next t → t.PcBounds

/-- STACK_CAPACITY is a parameter: no step, not even a `Boot` event, changes it (00_scope.md section 3; log entries 1
and 21). -/
def Obligations.StepKeepsTheCapacity : Prop :=
  ∀ s t : State, step s = .next t → t.stack.length = s.stack.length

/-- No instruction is refused but RET in a state whose `sp` lies outside the stack, so no step from a state of the spec's
machine is (log entry 17). -/
def Obligations.NothingIsRefused : Prop :=
  (∀ (i : Instr) (s : State) (r : Refusal), exec i s = .refused r → i = .ret ∧ s.stack.length ≤ s.sp) ∧
  (∀ (s : State) (r : Refusal), s.sp < s.stack.length → step s ≠ .refused r)

/-- The frame rule, 00_scope.md section 4 (decision D19, log entry 20): an instruction changes only the elements that its
rule's pseudocode writes, which `writes` lists. -/
def Obligations.ExecChangesOnlyWhatItsRuleWrites : Prop :=
  ∀ (i : Instr) (s t : State), exec i s = .next t → OnlyChanges s t (writes s i)

/-- 40_control_flow.md R100 and R102: SYS and JP set `pc`; SYS pushes nothing; no flag. Every class 0 word but two is
SYS. -/
def Obligations.JumpsSetPc : Prop :=
  (∀ w : Word, w &&& 0xF000 = 0x0000 → w ≠ 0x00E0 → w ≠ 0x00EE → decodeWord w = .ok (.sys (nnnOf w))) ∧
  DecodesAs 0xF000 0x1000 (fun w => .jp (nnnOf w)) ∧
  (∀ (nnn : Addr) (s : State), ∃ t, exec (.sys nnn) s = .next t ∧ t.pc.toNat = nnn.toNat ∧
    t.sp = s.sp ∧ t.stack = s.stack ∧ t.reg 15 = s.reg 15) ∧
  (∀ (nnn : Addr) (s : State), ∃ t, exec (.jp nnn) s = .next t ∧ t.pc.toNat = nnn.toNat ∧ t.reg 15 = s.reg 15)

/-- 40_control_flow.md R104: `pc` becomes `v[0] + nnn`, with no wrap and no reduction to 12 bits. -/
def Obligations.JumpV0AddsV0ToTheTarget : Prop :=
  DecodesAs 0xF000 0xB000 (fun w => .jpV0 (nnnOf w)) ∧
  ∀ (nnn : Addr) (s : State), ∃ t, exec (.jpV0 nnn) s = .next t ∧
    t.pc.toNat = (s.reg 0).toNat + nnn.toNat ∧ t.reg 15 = s.reg 15

/-- 40_control_flow.md R103: CALL pushes the address after itself and jumps, and overflows when `sp` is at the last entry.
The information in the fault is not stated here. -/
def Obligations.CallPushesTheReturnAddress : Prop :=
  DecodesAs 0xF000 0x2000 (fun w => .call (nnnOf w)) ∧
  ∀ (nnn : Addr) (s : State),
    (s.sp + 1 < s.stack.length → ∃ t, exec (.call nnn) s = .next t ∧ t.sp = s.sp + 1 ∧
      t.stack[s.sp + 1]? = some (s.pc + 2) ∧ (s.pc.toNat ≤ 0xFFE → (s.pc + 2).toNat = s.pc.toNat + 2) ∧
      t.pc.toNat = nnn.toNat ∧ t.stack[0]? = s.stack[0]? ∧ t.reg 15 = s.reg 15) ∧
    (s.sp + 1 = s.stack.length → ∃ pc w, exec (.call nnn) s = .fault (.stackOverflow pc w))

/-- 40_control_flow.md R101: RET pops the entry at `sp`, which is not cleared, and underflows when `sp` is 0. The
information in the fault is not stated here. -/
def Obligations.ReturnPopsTheReturnAddress : Prop :=
  DecodesAs 0xFFFF 0x00EE (fun _ => .ret) ∧
  ∀ s : State,
    (s.sp ≠ 0 → s.sp < s.stack.length → ∃ t a, exec .ret s = .next t ∧ s.stack[s.sp]? = some a ∧ t.pc = a ∧
      t.sp = s.sp - 1 ∧ t.stack = s.stack ∧ t.reg 15 = s.reg 15) ∧
    (s.sp = 0 → ∃ pc w, exec .ret s = .fault (.stackUnderflow pc w))

/-- 95_test_vectors.md S8: a RET that meets the stack as a CALL left it, whatever the subroutine did to anything else,
goes to the instruction after the CALL with the stack pointer of before. -/
def Obligations.ReturnComesBackAfterTheCall : Prop :=
  ∀ (nnn : Addr) (s t u : State), exec (.call nnn) s = .next t → u.sp = t.sp → u.stack = t.stack →
    ∃ r, exec .ret u = .next r ∧ r.pc = s.pc + 2 ∧ r.sp = s.sp ∧
      (∀ k, k ≠ s.sp + 1 → r.stack[k]? = s.stack[k]?)

/-- 41_skips.md R120 and R121: an advance by two widths when the condition holds, by one when it does not; no flag. -/
def Obligations.SkipsCompareWithTheImmediate : Prop :=
  DecodesAs 0xF000 0x3000 (fun w => .seImm (xOf w) (nnOf w)) ∧
  DecodesAs 0xF000 0x4000 (fun w => .sneImm (xOf w) (nnOf w)) ∧
  (∀ (x : Reg) (nn : Byte) (s : State), ∃ t, exec (.seImm x nn) s = .next t ∧
    (s.reg x = nn → t.pc = s.pc + 4) ∧ (s.reg x ≠ nn → t.pc = s.pc + 2) ∧ t.reg 15 = s.reg 15) ∧
  (∀ (x : Reg) (nn : Byte) (s : State), ∃ t, exec (.sneImm x nn) s = .next t ∧
    (s.reg x ≠ nn → t.pc = s.pc + 4) ∧ (s.reg x = nn → t.pc = s.pc + 2) ∧ t.reg 15 = s.reg 15)

/-- 41_skips.md: the same with two registers. That every `5xyn` and `9xyn` is the instruction, whatever its low nibble, is the
spec's decision D8 (log entry 15). -/
def Obligations.SkipsCompareTheRegisters : Prop :=
  DecodesAs 0xF000 0x5000 (fun w => .seReg (xOf w) (yOf w)) ∧
  DecodesAs 0xF000 0x9000 (fun w => .sneReg (xOf w) (yOf w)) ∧
  (∀ (x y : Reg) (s : State), ∃ t, exec (.seReg x y) s = .next t ∧
    (s.reg x = s.reg y → t.pc = s.pc + 4) ∧ (s.reg x ≠ s.reg y → t.pc = s.pc + 2) ∧ t.reg 15 = s.reg 15) ∧
  (∀ (x y : Reg) (s : State), ∃ t, exec (.sneReg x y) s = .next t ∧
    (s.reg x ≠ s.reg y → t.pc = s.pc + 4) ∧ (s.reg x = s.reg y → t.pc = s.pc + 2) ∧ t.reg 15 = s.reg 15)

/-- 42_alu.md R130 and R131: the loaded value, and the sum that wraps and touches no flag (VF changes only as the
destination). -/
def Obligations.ImmediateLoadAndAdd : Prop :=
  DecodesAs 0xF000 0x6000 (fun w => .ldImm (xOf w) (nnOf w)) ∧
  DecodesAs 0xF000 0x7000 (fun w => .addImm (xOf w) (nnOf w)) ∧
  (∀ (x : Reg) (nn : Byte) (s : State), ∃ t, exec (.ldImm x nn) s = .next t ∧ t.reg x = nn ∧ t.pc = s.pc + 2 ∧
    (x ≠ 15 → t.reg 15 = s.reg 15)) ∧
  (∀ (x : Reg) (nn : Byte) (s : State), ∃ t, exec (.addImm x nn) s = .next t ∧
    (t.reg x).toNat = ((s.reg x).toNat + nn.toNat) % 256 ∧ t.pc = s.pc + 2 ∧
    (x ≠ 15 → t.reg 15 = s.reg 15))

/-- 42_alu.md section 3, `8xy0` to `8xy3`: the copy and the three bitwise operations, bit by bit. That the logic operations
leave VF alone is the spec's frame rule, decision D19 (log entry 20). -/
def Obligations.RegisterCopyAndLogic : Prop :=
  DecodesAs 0xF00F 0x8000 (fun w => .ldReg (xOf w) (yOf w)) ∧
  DecodesAs 0xF00F 0x8001 (fun w => .orReg (xOf w) (yOf w)) ∧
  DecodesAs 0xF00F 0x8002 (fun w => .andReg (xOf w) (yOf w)) ∧
  DecodesAs 0xF00F 0x8003 (fun w => .xorReg (xOf w) (yOf w)) ∧
  ∀ (x y : Reg) (s : State),
    (∃ t, exec (.ldReg x y) s = .next t ∧ t.reg x = s.reg y ∧ t.pc = s.pc + 2 ∧
      (x ≠ 15 → t.reg 15 = s.reg 15)) ∧
    (∃ t, exec (.orReg x y) s = .next t ∧ (∀ k < 8, (t.reg x).getLsbD k = ((s.reg x).getLsbD k || (s.reg y).getLsbD k)) ∧
      t.pc = s.pc + 2 ∧ (x ≠ 15 → t.reg 15 = s.reg 15)) ∧
    (∃ t, exec (.andReg x y) s = .next t ∧ (∀ k < 8, (t.reg x).getLsbD k = ((s.reg x).getLsbD k && (s.reg y).getLsbD k)) ∧
      t.pc = s.pc + 2 ∧ (x ≠ 15 → t.reg 15 = s.reg 15)) ∧
    (∃ t, exec (.xorReg x y) s = .next t ∧ (∀ k < 8, (t.reg x).getLsbD k = ((s.reg x).getLsbD k ^^ (s.reg y).getLsbD k)) ∧
      t.pc = s.pc + 2 ∧ (x ≠ 15 → t.reg 15 = s.reg 15))

/-- 42_alu.md section 3, `8xy4` (decision D9, log entry 7): the sum modulo 256 and the carry; where the destination is VF
the sum wins. -/
def Obligations.AddSetsTheCarry : Prop :=
  DecodesAs 0xF00F 0x8004 (fun w => .addReg (xOf w) (yOf w)) ∧
  ∀ (x y : Reg) (s : State), ∃ t, exec (.addReg x y) s = .next t ∧
    (t.reg x).toNat = ((s.reg x).toNat + (s.reg y).toNat) % 256 ∧
    (x ≠ 15 → 255 < (s.reg x).toNat + (s.reg y).toNat → t.reg 15 = 1) ∧
    (x ≠ 15 → (s.reg x).toNat + (s.reg y).toNat ≤ 255 → t.reg 15 = 0) ∧
    t.pc = s.pc + 2 ∧ OnlyChanges s t (fun e => e = .pc ∨ e = .v x ∨ e = .v 15)

/-- 42_alu.md section 3, `8xy5` and `8xy7` (decision D9, log entry 7): the difference modulo 256 and the strict comparison.
Where VF is an operand the difference uses the new flag, and where it is the destination the difference wins. -/
def Obligations.SubtractSetsTheStrictFlag : Prop :=
  DecodesAs 0xF00F 0x8005 (fun w => .subReg (xOf w) (yOf w)) ∧
  DecodesAs 0xF00F 0x8007 (fun w => .subn (xOf w) (yOf w)) ∧
  (∀ (x y : Reg) (s : State), ∃ t, exec (.subReg x y) s = .next t ∧
    (∀ f a b : Nat, f = (if (s.reg y).toNat < (s.reg x).toNat then 1 else 0) →
      a = (if x = 15 then f else (s.reg x).toNat) → b = (if y = 15 then f else (s.reg y).toNat) →
      (t.reg x).toNat = (a + 256 - b) % 256 ∧ (x ≠ 15 → (t.reg 15).toNat = f)) ∧
    t.pc = s.pc + 2 ∧ OnlyChanges s t (fun e => e = .pc ∨ e = .v x ∨ e = .v 15)) ∧
  (∀ (x y : Reg) (s : State), ∃ t, exec (.subn x y) s = .next t ∧
    (∀ f a b : Nat, f = (if (s.reg x).toNat < (s.reg y).toNat then 1 else 0) →
      a = (if y = 15 then f else (s.reg y).toNat) → b = (if x = 15 then f else (s.reg x).toNat) →
      (t.reg x).toNat = (a + 256 - b) % 256 ∧ (x ≠ 15 → (t.reg 15).toNat = f)) ∧
    t.pc = s.pc + 2 ∧ OnlyChanges s t (fun e => e = .pc ∨ e = .v x ∨ e = .v 15))

/-- 42_alu.md section 3, `8xy6` (decisions D8, D9, log entries 7 and 15): half of `v[x]`, and the bit shifted out in VF; with
`x = 0xF` VF ends 0. -/
def Obligations.ShiftRightMovesBitZeroOut : Prop :=
  DecodesAs 0xF00F 0x8006 (fun w => .shr (xOf w)) ∧
  ∀ (x : Reg) (s : State), ∃ t, exec (.shr x) s = .next t ∧
    (x ≠ 15 → (t.reg x).toNat = (s.reg x).toNat / 2 ∧ (t.reg 15).toNat = (s.reg x).toNat % 2) ∧
    (x = 15 → t.reg 15 = 0) ∧
    t.pc = s.pc + 2 ∧ OnlyChanges s t (fun e => e = .pc ∨ e = .v x ∨ e = .v 15)

/-- 42_alu.md section 3, `8xyE` (decisions D8, D9, log entries 7 and 15): twice `v[x]` modulo 256, and the bit shifted out
in VF; with `x = 0xF` VF ends 0 or 2. -/
def Obligations.ShiftLeftMovesBitSevenOut : Prop :=
  DecodesAs 0xF00F 0x800E (fun w => .shl (xOf w)) ∧
  ∀ (x : Reg) (s : State), ∃ t, exec (.shl x) s = .next t ∧
    (x ≠ 15 → (t.reg x).toNat = 2 * (s.reg x).toNat % 256 ∧ (t.reg 15).toNat = (s.reg x).toNat / 128) ∧
    (x = 15 → (t.reg 15).toNat = 2 * ((s.reg x).toNat / 128)) ∧
    t.pc = s.pc + 2 ∧ OnlyChanges s t (fun e => e = .pc ∨ e = .v x ∨ e = .v 15)

/-- 42_alu.md R141: the seven undefined ALU words only advance `pc`. -/
def Obligations.AluNoOpsOnlyAdvance : Prop :=
  ∀ p ∈ ([(0x8008, .alunop8), (0x8009, .alunop9), (0x800A, .alunopA), (0x800B, .alunopB), (0x800C, .alunopC),
      (0x800D, .alunopD), (0x800F, .alunopF)] : List (Word × Instr)),
    DecodesAs 0xF00F p.1 (fun _ => p.2) ∧
    ∀ s : State, ∃ t, exec p.2 s = .next t ∧ t.pc = s.pc + 2 ∧ OnlyChanges s t (fun e => e = .pc)

/-- 42_alu.md section 4 (decision D13, log entry 3): RND masks a byte of the random input, the oldest that the host has
supplied, or a free value; only bits of the mask can be set, whatever the byte. -/
def Obligations.RandomIsMasked : Prop :=
  DecodesAs 0xF000 0xC000 (fun w => .rnd (xOf w) (nnOf w)) ∧
  ∀ (x : Reg) (nn : Byte) (s : State), ∃ t r, exec (.rnd x nn) s = .next t ∧ t.reg x = r &&& nn ∧
    (∀ k, nn.getLsbD k = false → (t.reg x).getLsbD k = false) ∧
    (∀ b rest, s.rndIn = b :: rest → r = b ∧ t.rndIn = rest ∧ t.rndDraws = s.rndDraws) ∧
    (s.rndIn = [] → t.rndIn = [] ∧ t.rndDraws = s.rndDraws + 1) ∧
    t.pc = s.pc + 2 ∧ OnlyChanges s t (fun e => e = .pc ∨ e = .v x ∨ e = .rndIn ∨ e = .rndDraws)

/-- 43_index_memory.md R160: the address becomes `I`, which so stays at most 0xFFF; no flag. -/
def Obligations.LoadIndexTakesTheAddress : Prop :=
  DecodesAs 0xF000 0xA000 (fun w => .ldI (nnnOf w)) ∧
  ∀ (nnn : Addr) (s : State), ∃ t, exec (.ldI nnn) s = .next t ∧ t.i.toNat = nnn.toNat ∧ t.i.toNat ≤ 0xFFF ∧
    t.pc = s.pc + 2 ∧ t.reg 15 = s.reg 15

/-- 43_index_memory.md section 1, `Fx1E` (decision D4, log entry 11): the sum becomes `I` when it is at most 0xFFF and is
reported otherwise; no flag. The `pc` and the word recorded with the fault are 60_exceptions.md section 1 (decision D26, log
entry 22). -/
def Obligations.AddToIndexStaysInRange : Prop :=
  DecodesAs 0xF0FF 0xF01E (fun w => .addI (xOf w)) ∧
  ∀ (x : Reg) (s : State),
    (s.i.toNat + (s.reg x).toNat ≤ 0xFFF → ∃ t, exec (.addI x) s = .next t ∧
      t.i.toNat = s.i.toNat + (s.reg x).toNat ∧ t.pc = s.pc + 2 ∧ OnlyChanges s t (fun e => e = .pc ∨ e = .i)) ∧
    (0xFFF < s.i.toNat + (s.reg x).toNat →
      exec (.addI x) s = .fault (.indexOutOfRange (s.i.toNat + (s.reg x).toNat) s.pc (encodeWord (.addI x))))

/-- 43_index_memory.md R162: five times the whole byte; no flag. -/
def Obligations.FontAddressIsFiveTimesTheByte : Prop :=
  DecodesAs 0xF0FF 0xF029 (fun w => .ldFont (xOf w)) ∧
  ∀ (x : Reg) (s : State), ∃ t, exec (.ldFont x) s = .next t ∧ t.i.toNat = 5 * (s.reg x).toNat ∧
    t.pc = s.pc + 2 ∧ t.reg 15 = s.reg 15

/-- 43_index_memory.md section 3, `Fx33` (decision D5, log entry 12): the three decimal digits at `I`, `I + 1`, `I + 2`. -/
def Obligations.BcdStoreWritesTheDigits : Prop :=
  DecodesAs 0xF0FF 0xF033 (fun w => .ldBcd (xOf w)) ∧
  ∀ (x : Reg) (s : State), s.mem.wf → s.i.toNat + 2 ≤ 0xFFF →
    ∃ t, exec (.ldBcd x) s = .next t ∧
      (t.mem.read (s.effectiveAddress 0)).toNat = (s.reg x).toNat / 100 ∧
      (t.mem.read (s.effectiveAddress 1)).toNat = (s.reg x).toNat / 10 % 10 ∧
      (t.mem.read (s.effectiveAddress 2)).toNat = (s.reg x).toNat % 10 ∧
      t.pc = s.pc + 2 ∧ OnlyChanges s t (fun e => e = .pc ∨ ∃ k, k < 3 ∧ e = .mem (s.effectiveAddress k))

/-- 43_index_memory.md section 3, `Fx55` (decision D5, log entry 12): `v[0]` to `v[x]` at `I` to `I + x`. -/
def Obligations.StoreWritesTheRegisters : Prop :=
  DecodesAs 0xF0FF 0xF055 (fun w => .store (xOf w)) ∧
  ∀ (x : Reg) (s : State), s.mem.wf → s.i.toNat + x.val ≤ 0xFFF →
    ∃ t, exec (.store x) s = .next t ∧ (∀ k : Reg, k ≤ x → t.mem.read (s.effectiveAddress k.val) = s.reg k) ∧
      t.pc = s.pc + 2 ∧ OnlyChanges s t (fun e => e = .pc ∨ ∃ k, k ≤ x.val ∧ e = .mem (s.effectiveAddress k))

/-- 43_index_memory.md section 3, `Fx65` (decision D5, log entry 12): the bytes at `I` to `I + x` into `v[0]` to `v[x]`. -/
def Obligations.LoadReadsTheRegisters : Prop :=
  DecodesAs 0xF0FF 0xF065 (fun w => .load (xOf w)) ∧
  ∀ (x : Reg) (s : State), s.i.toNat + x.val ≤ 0xFFF →
    ∃ t, exec (.load x) s = .next t ∧ (∀ k : Reg, k ≤ x → t.reg k = s.mem.read (s.effectiveAddress k.val)) ∧
      t.pc = s.pc + 2 ∧ OnlyChanges s t (fun e => e = .pc ∨ ∃ k, k ≤ x ∧ e = .v k)

/-- 43_index_memory.md section 2 and 44_display.md (decision D5, log entry 12): the four memory instructions fault, with the
last address, when it exceeds 0xFFF. The `pc` and the word recorded with it are 60_exceptions.md section 1 (decision D26, log
entry 22). -/
def Obligations.AccessPastMemoryFaults : Prop :=
  ∀ (x y : Reg) (n : Nibble) (s : State),
    (0xFFF < s.i.toNat + 2 →
      exec (.ldBcd x) s = .fault (.memoryOutOfRange (s.i.toNat + 2) s.pc (encodeWord (.ldBcd x)))) ∧
    (0xFFF < s.i.toNat + x.val →
      exec (.store x) s = .fault (.memoryOutOfRange (s.i.toNat + x.val) s.pc (encodeWord (.store x)))) ∧
    (0xFFF < s.i.toNat + x.val →
      exec (.load x) s = .fault (.memoryOutOfRange (s.i.toNat + x.val) s.pc (encodeWord (.load x)))) ∧
    (1 ≤ n.toNat → 0xFFF < s.i.toNat + n.toNat - 1 →
      exec (.drw x y n) s = .fault (.memoryOutOfRange (s.i.toNat + n.toNat - 1) s.pc (encodeWord (.drw x y n))))

/-- 95_test_vectors.md S9: `Fx65` at the memory and the `I` that `Fx55` left, whatever else happened to the registers,
gives back what was stored. -/
def Obligations.LoadAfterStoreGivesTheRegistersBack : Prop :=
  ∀ (x : Reg) (s t u : State), s.mem.wf → exec (.store x) s = .next t → u.mem = t.mem → u.i = t.i →
    ∃ r, exec (.load x) u = .next r ∧ ∀ k : Reg, k ≤ x → r.reg k = s.reg k

/-- 20_memory.md section 7: what `Fx55` stores is what the fetch reads as an instruction in any later state with that
memory, the very next one included. -/
def Obligations.StoredBytesAreFetched : Prop :=
  ∀ (x k : Reg) (s t u : State), s.mem.wf → exec (.store x) s = .next t → u.mem = t.mem → k < x →
    u.pc.toNat = s.effectiveAddress k.val →
    u.fetchWord.toNat = (s.reg k).toNat * 256 + (s.reg (k + 1)).toNat

/-- 44_display.md R180: all 2048 pixels become 0; VF is not written. -/
def Obligations.ClearBlanksEveryPixel : Prop :=
  DecodesAs 0xFFFF 0x00E0 (fun _ => .cls) ∧
  ∀ s : State, ∃ t, exec .cls s = .next t ∧ (∀ r c, Framebuffer.pixel t.fb r c = false) ∧ t.pc = s.pc + 2 ∧
    t.reg 15 = s.reg 15

/-- 44_display.md section on `Dxyn` (decisions D5, D10, log entries 8 and 12): the draw XORs the clipped sprite into the
framebuffer, and VF is 1 exactly when a lit pixel is erased. -/
def Obligations.DrawXorsTheSprite : Prop :=
  DecodesAs 0xF000 0xD000 (fun w => .drw (xOf w) (yOf w) (nOf w)) ∧
  ∀ (x y : Reg) (n : Nibble) (s : State), (n.toNat = 0 ∨ s.i.toNat + n.toNat - 1 ≤ 0xFFF) →
    ∃ t, exec (.drw x y n) s = .next t ∧
      (∀ r c, Framebuffer.pixel t.fb r c = (Framebuffer.pixel s.fb r c ^^ s.spritePixel x y n r c)) ∧
      ((∃ r c, s.spritePixel x y n r c = true ∧ Framebuffer.pixel s.fb r c = true) → t.reg 15 = 1) ∧
      ((¬ ∃ r c, s.spritePixel x y n r c = true ∧ Framebuffer.pixel s.fb r c = true) → t.reg 15 = 0) ∧
      t.pc = s.pc + 2 ∧
      OnlyChanges s t (fun e => e = .pc ∨ e = .v 15 ∨ ∃ r c, s.spritePixel x y n r c = true ∧ e = .fb r c)

/-- 95_test_vectors.md S6: the same draw at the same place again restores every pixel, and VF is then 1 exactly when the
first draw set a pixel to 1. -/
def Obligations.DrawTwiceRestoresTheFramebuffer : Prop :=
  ∀ (x y : Reg) (n : Nibble) (s t : State), exec (.drw x y n) s = .next t → t.reg x = s.reg x → t.reg y = s.reg y →
    ∃ u, exec (.drw x y n) t = .next u ∧
      (∀ r c, Framebuffer.pixel u.fb r c = Framebuffer.pixel s.fb r c) ∧
      (u.reg 15 = 1 ↔ ∃ r c, Framebuffer.pixel s.fb r c = false ∧ Framebuffer.pixel t.fb r c = true)

/-- 10_state.md section 8: the only way a program observes the framebuffer is the collision flag. With another framebuffer
an instruction ends the same way, and everything but the pixels, and VF after a draw, comes out the same. -/
def Obligations.FramebufferIsSeenOnlyByCollision : Prop :=
  ∀ (i : Instr) (s : State) (f : Framebuffer),
    (∀ t, exec i s = .next t → ∃ u, exec i { s with fb := f } = .next u ∧
      OnlyChanges t u (fun e => (∃ r c, e = .fb r c) ∨ (∃ x y n, i = .drw x y n) ∧ e = .v 15)) ∧
    (∀ g, exec i s = .fault g → exec i { s with fb := f } = .fault g)

/-- 10_state.md section 8: the renderer's port is the 2048 pixels, each as a byte 0 or 1. That they come row by row, pixel
(r, c) at 64 r + c, is the spec's decision D25 (log entry 23). -/
def Obligations.FramebufferPortIsRowMajor : Prop :=
  ∀ s : State, s.framebufferOut.length = 2048 ∧
    ∀ (r : Fin 32) (c : Fin 64), s.framebufferOut[r.val * 64 + c.val]? =
      some (if Framebuffer.pixel s.fb r c then 1 else 0)

/-- 45_timers_keypad.md R200, R201 and R202: the delay timer into a register, and a register into either timer; no flag. -/
def Obligations.TimerTransfers : Prop :=
  DecodesAs 0xF0FF 0xF007 (fun w => .ldFromDt (xOf w)) ∧
  DecodesAs 0xF0FF 0xF015 (fun w => .ldToDt (xOf w)) ∧
  DecodesAs 0xF0FF 0xF018 (fun w => .ldToSt (xOf w)) ∧
  ∀ (x : Reg) (s : State),
    (∃ t, exec (.ldFromDt x) s = .next t ∧ t.reg x = s.dt ∧ t.dt = s.dt ∧ t.pc = s.pc + 2 ∧
      (x ≠ 15 → t.reg 15 = s.reg 15)) ∧
    (∃ t, exec (.ldToDt x) s = .next t ∧ t.dt = s.reg x ∧ t.pc = s.pc + 2 ∧ t.reg 15 = s.reg 15) ∧
    (∃ t, exec (.ldToSt x) s = .next t ∧ t.st = s.reg x ∧ t.pc = s.pc + 2 ∧ t.reg 15 = s.reg 15)

/-- 45_timers_keypad.md section 2 (decision D6, log entry 13): the keypad skips sample the flag of the key that `v[x]` names,
and report a value that names none. The `pc` and the word recorded with the fault are 60_exceptions.md section 1 (decision
D26, log entry 22). -/
def Obligations.KeypadSkipsSampleTheLatch : Prop :=
  DecodesAs 0xF0FF 0xE09E (fun w => .skp (xOf w)) ∧
  DecodesAs 0xF0FF 0xE0A1 (fun w => .sknp (xOf w)) ∧
  ∀ (x : Reg) (s : State),
    (∀ k : Key, (s.reg x).toNat = k.val →
      (∃ t, exec (.skp x) s = .next t ∧ (s.key[k.val] = true → t.pc = s.pc + 4) ∧
        (s.key[k.val] = false → t.pc = s.pc + 2) ∧ OnlyChanges s t (fun e => e = .pc)) ∧
      (∃ t, exec (.sknp x) s = .next t ∧ (s.key[k.val] = false → t.pc = s.pc + 4) ∧
        (s.key[k.val] = true → t.pc = s.pc + 2) ∧ OnlyChanges s t (fun e => e = .pc))) ∧
    (15 < (s.reg x).toNat →
      exec (.skp x) s = .fault (.keyIndexOutOfRange (s.reg x) s.pc (encodeWord (.skp x))) ∧
      exec (.sknp x) s = .fault (.keyIndexOutOfRange (s.reg x) s.pc (encodeWord (.sknp x))))

/-- 45_timers_keypad.md section 3 (decisions D11, D12, log entries 5 and 6): with a key down the smallest one is stored and
the instruction retires; with none nothing at all changes. -/
def Obligations.KeyWaitStoresTheSmallestKey : Prop :=
  DecodesAs 0xF0FF 0xF00A (fun w => .ldKey (xOf w)) ∧
  ∀ (x : Reg) (s : State),
    (∀ k : Key, s.key[k.val] = true → (∀ j : Key, j < k → s.key[j.val] = false) →
      ∃ t, exec (.ldKey x) s = .next t ∧ (t.reg x).toNat = k.val ∧ t.pc = s.pc + 2 ∧
        OnlyChanges s t (fun e => e = .pc ∨ e = .v x)) ∧
    ((∀ k : Key, s.key[k.val] = false) → exec (.ldKey x) s = .next s)

/-- 00_scope.md section 5 (decision D12, log entry 5): a Step has the outcome WaitKey exactly when the instruction at `pc` is
`Fx0A` and no key is down; it then leaves the state as it was. -/
def Obligations.WaitKeyIsTheIdleStep : Prop :=
  ∀ s : State,
    (s.stepResult = .waitKey ↔ ∃ x, s.fetch = .ok (.ldKey x) ∧ ∀ k : Key, s.key[k.val] = false) ∧
    (s.stepResult = .waitKey → cycle s = .next s) ∧
    (∀ t, s.stepResult = .retired t → cycle s = .next t)

/-- 45_timers_keypad.md section 3: a waiting core waits for any number of Steps with no change, and the first Step after
`KeyWrite(k, true)` ends the wait with `k`. -/
def Obligations.KeyWriteEndsTheWait : Prop :=
  ∀ (s : State) (x : Reg), s.fetch = .ok (.ldKey x) → (∀ k : Key, s.key[k.val] = false) →
    (s.pending = [] → ∀ n, Host.Core.run Sys2Proof.core n s = .next s) ∧
    (∀ k : Key, s.pending = [.keyWrite k true] → ∃ t, Host.Core.run Sys2Proof.core 2 s = .next t ∧
      (t.reg x).toNat = k.val ∧ t.pc = s.pc + 2 ∧ t.pending = [])

/-- 45_timers_keypad.md R206: `Tick` counts both timers down by one, never below 0, and changes nothing else. -/
def Obligations.TickCountsTheTimersDown : Prop :=
  ∀ s : State, ∃ t, runEvent .tick s = .next t ∧
    (0 < s.dt.toNat → t.dt.toNat = s.dt.toNat - 1) ∧ (s.dt.toNat = 0 → t.dt = 0) ∧
    (0 < s.st.toNat → t.st.toNat = s.st.toNat - 1) ∧ (s.st.toNat = 0 → t.st = 0) ∧
    OnlyChanges s t (fun e => e = .dt ∨ e = .st)

/-- 45_timers_keypad.md R207: `KeyWrite(k, b)` sets flag `k` and changes nothing else. -/
def Obligations.KeyWriteSetsOneFlag : Prop :=
  ∀ (s : State) (k : Key) (b : Bool), ∃ t, runEvent (.keyWrite k b) s = .next t ∧ t.key[k.val] = b ∧
    OnlyChanges s t (fun e => e = .key k)

/-- 10_state.md sections 7 and 9: over all events, a timer changes only by `Tick` (one down), by a Step that executes its own
load instruction or by `Boot`, and a key flag only by `KeyWrite` or `Boot`. -/
def Obligations.TimersAndKeysHaveOnlyTheirWriters : Prop :=
  ∀ s t : State, step s = .next t → (∀ rom rest, s.pending ≠ .boot rom :: rest) →
    (t.dt ≠ s.dt → (∃ rest, s.pending = .tick :: rest ∧ t.dt = s.dt - 1) ∨
      ((s.pending = [] ∨ ∃ rest, s.pending = .step :: rest) ∧ ∃ x, s.fetch = .ok (.ldToDt x) ∧ t.dt = s.reg x)) ∧
    (t.st ≠ s.st → (∃ rest, s.pending = .tick :: rest ∧ t.st = s.st - 1) ∨
      ((s.pending = [] ∨ ∃ rest, s.pending = .step :: rest) ∧ ∃ x, s.fetch = .ok (.ldToSt x) ∧ t.st = s.reg x)) ∧
    (∀ k : Key, t.key[k.val] ≠ s.key[k.val] → ∃ b rest, s.pending = .keyWrite k b :: rest)

/-- 60_exceptions.md sections 1 and 2 (decisions D2, D26, log entries 9 and 22): the table of fault causes is complete and
exact for the execute stage. The table has StackOverflow at `sp` equal to the capacity less 1; that CALL faults so at a larger
`sp` too, which no state of the machine has, is the model's choice (log entry 17). -/
def Obligations.FaultCausesAreTheTable : Prop :=
  ∀ (i : Instr) (s : State) (f : Fault), exec i s = .fault f ↔
    (∃ nnn, i = .call nnn ∧ s.stack.length ≤ s.sp + 1 ∧ f = .stackOverflow s.pc (encodeWord i)) ∨
    (i = .ret ∧ s.sp = 0 ∧ f = .stackUnderflow s.pc (encodeWord i)) ∨
    (∃ x, i = .addI x ∧ 0xFFF < s.i.toNat + (s.reg x).toNat ∧
      f = .indexOutOfRange (s.i.toNat + (s.reg x).toNat) s.pc (encodeWord i)) ∨
    (∃ m, (∃ x, (i = .ldBcd x ∧ m = 3) ∨ (i = .store x ∧ m = x.val + 1) ∨ (i = .load x ∧ m = x.val + 1) ∨
        (∃ y n, i = .drw x y n ∧ m = n.toNat ∧ 1 ≤ m)) ∧
      0xFFF < s.i.toNat + m - 1 ∧ f = .memoryOutOfRange (s.i.toNat + m - 1) s.pc (encodeWord i)) ∨
    (∃ x, (i = .skp x ∨ i = .sknp x) ∧ 15 < (s.reg x).toNat ∧ f = .keyIndexOutOfRange (s.reg x) s.pc (encodeWord i))

/-- 60_exceptions.md section 1 (decision D26, log entry 22): a Step's fault records the `pc` of the Step and the word that
was fetched, none when the fetch itself faulted. -/
def Obligations.FaultRecordsPcAndWord : Prop :=
  ∀ (s : State) (f : Fault), cycle s = .fault f →
    f.recordedPc = some s.pc ∧
    ((0xFFE < s.pc.toNat ∧ f.code = some 1 ∧ f.recordedWord = none) ∨
     (s.pc.toNat ≤ 0xFFE ∧ (∃ c, f.code = some c ∧ 2 ≤ c ∧ c ≤ 7) ∧ f.recordedWord = some s.fetchWord))

/-- 60_exceptions.md section 1 (decision D2, log entry 9): after a fault the same fault comes again, whatever `Tick` and
`KeyWrite` events and random values come in between. -/
def Obligations.FaultComesAgain : Prop :=
  ∀ (s : State) (f : Fault), cycle s = .fault f →
    cycle s.tick = .fault f ∧ (∀ k b, cycle (s.keyWrite k b) = .fault f) ∧
    ∀ rs n, cycle { s with rndIn := rs, rndDraws := n } = .fault f

/-- 70_reset_and_hazards.md section 3 (decision D23, log entry 24): a jump to itself retires for ever and changes nothing. -/
def Obligations.SelfJumpIsQuiescent : Prop :=
  ∀ s : State, s.finished → s.pending = [] → ∀ n, Host.Core.run Sys2Proof.core n s = .next s

/-- FONT is a parameter: no step, not even a `Boot` event, changes it, whatever is stored over the font area of memory
(00_scope.md section 3; log entries 2 and 21). -/
def Obligations.StepKeepsTheFont : Prop :=
  ∀ s t : State, step s = .next t → t.font = s.font
end

