-- ==== Sys2Proof/Laws/Decode.lean ====
section
/-! SUPPORT. The fields of a word, and what the decoder answers, class by class. -/

namespace Sys2Proof

theorem toNat_appended {m n : Nat} (a : BitVec m) (b : BitVec n) : (a ++ b).toNat = a.toNat * 2 ^ n + b.toNat := by
  rw [BitVec.toNat_append, Nat.shiftLeft_eq, Nat.mul_comm, ← Nat.two_pow_add_eq_or_of_lt b.isLt]

/-- The word as a number: 256 times the byte at the lower address plus the byte at the higher (20_memory.md R53). -/
theorem toNat_wordOfBytes (hi lo : Byte) : (wordOfBytes hi lo).toNat = hi.toNat * 256 + lo.toNat := toNat_appended hi lo

theorem toNat_highByte (w : Word) : (highByte w).toNat = w.toNat / 256 := by
  have := w.isLt
  simp only [highByte, BitVec.extractLsb'_toNat, Nat.shiftRight_eq_div_pow]
  omega

theorem toNat_lowByte (w : Word) : (lowByte w).toNat = w.toNat % 256 := by
  simp only [lowByte, BitVec.extractLsb'_toNat, Nat.shiftRight_eq_div_pow]
  omega

/-- The word function of the byte order puts the two bytes of a word together again. -/
@[simp] theorem wordOfBytes_high_low (w : Word) : wordOfBytes (highByte w) (lowByte w) = w := by
  apply BitVec.eq_of_toNat_eq
  rw [toNat_wordOfBytes, toNat_highByte, toNat_lowByte]
  omega

@[simp] theorem highByte_wordOfBytes (hi lo : Byte) : highByte (wordOfBytes hi lo) = hi := by
  apply BitVec.eq_of_toNat_eq
  rw [toNat_highByte, toNat_wordOfBytes]
  have := lo.isLt
  omega

@[simp] theorem lowByte_wordOfBytes (hi lo : Byte) : lowByte (wordOfBytes hi lo) = lo := by
  apply BitVec.eq_of_toNat_eq
  rw [toNat_lowByte, toNat_wordOfBytes]
  have := lo.isLt
  omega

/-- Two bytes and more decode as their word does. -/
theorem decode_cons_cons (hi lo : Byte) (rest : List Byte) :
    decode (hi :: lo :: rest) = (decodeWord (wordOfBytes hi lo)).map fun i => (i, rest) := by
  simp only [decode]
  cases decodeWord (wordOfBytes hi lo) <;> rfl

theorem toNat_field (w : Word) (lo k : Nat) : (field w lo k).toNat = w.toNat / 2 ^ (4 * lo) % 2 ^ (4 * k) := by
  simp [field, Nat.shiftRight_eq_div_pow]

theorem toNat_classOf (w : Word) : (classOf w).toNat = w.toNat / 4096 := by
  have := toNat_field w 3 1
  have hw := w.isLt
  unfold classOf
  rw [this]
  omega

theorem toNat_nnOf (w : Word) : (nnOf w).toNat = w.toNat % 256 := by
  have := toNat_field w 0 2
  unfold nnOf
  rw [this]
  omega

theorem toNat_nnnOf (w : Word) : (nnnOf w).toNat = w.toNat % 4096 := by
  have := toNat_field w 0 3
  unfold nnnOf
  rw [this]
  omega

theorem toNat_nOf (w : Word) : (nOf w).toNat = w.toNat % 16 := by
  have := toNat_field w 0 1
  unfold nOf
  rw [this]
  omega

theorem val_xOf (w : Word) : (xOf w).val = w.toNat / 256 % 16 := toNat_field w 2 1

theorem val_yOf (w : Word) : (yOf w).val = w.toNat / 16 % 16 := toNat_field w 1 1

/-- Format NNN as a number. -/
theorem toNat_formatNNN (c : Nibble) (nnn : Addr) : (formatNNN c nnn).toNat = c.toNat * 4096 + nnn.toNat := toNat_appended c nnn

theorem toNat_nibbles (a b : Nibble) : (a ++ b).toNat = a.toNat * 16 + b.toNat := toNat_appended a b

@[simp] theorem toNat_toNibble (x : Reg) : x.toNibble.toNat = x.val := rfl

/-- Format XNN as a number. -/
theorem toNat_formatXNN (c : Nibble) (x : Reg) (nn : Byte) :
    (formatXNN c x nn).toNat = c.toNat * 4096 + x.val * 256 + nn.toNat := by
  have h := toNat_wordOfBytes (c ++ x.toNibble) nn
  have h2 := toNat_nibbles c x.toNibble
  unfold wordOfBytes at h
  unfold formatXNN
  rw [h, h2, toNat_toNibble]
  omega

/-- Format XYN as a number. -/
theorem toNat_formatXYN (c : Nibble) (x y : Reg) (n : Nibble) :
    (formatXYN c x y n).toNat = c.toNat * 4096 + x.val * 256 + y.val * 16 + n.toNat := by
  have h := toNat_wordOfBytes (c ++ x.toNibble) (y.toNibble ++ n)
  have h2 := toNat_nibbles c x.toNibble
  have h3 := toNat_nibbles y.toNibble n
  unfold wordOfBytes at h
  unfold formatXYN
  rw [h, h2, h3, toNat_toNibble, toNat_toNibble]
  omega

/-- The mask of a row that is recognised by its class alone. -/
theorem toNat_and_F000 (w : Word) : (w &&& 0xF000).toNat = w.toNat / 4096 * 4096 := by
  have hw := w.isLt
  rw [BitVec.toNat_and]
  apply Nat.eq_of_testBit_eq
  intro k
  rw [show (4096 : Nat) = 2 ^ 12 from rfl, Nat.testBit_and, Nat.testBit_mul_two_pow, Nat.testBit_div_two_pow]
  by_cases hk : k < 16
  · interval_cases k <;> simp +decide
  · have h : w.toNat.testBit k = false :=
      Nat.testBit_lt_two_pow (Nat.lt_of_lt_of_le hw (Nat.pow_le_pow_right (by omega) (by omega)))
    rw [Nat.sub_add_cancel (by omega), h]
    simp

theorem toNat_and_low (w : Word) (k : Nat) (hk : k < 16) : (w &&& BitVec.ofNat 16 (2 ^ k - 1)).toNat = w.toNat % 2 ^ k := by
  have h : 2 ^ k - 1 < 2 ^ 16 := Nat.lt_of_le_of_lt (Nat.sub_le _ _) (Nat.pow_lt_pow_right (by omega) hk)
  rw [BitVec.toNat_and, BitVec.toNat_ofNat, Nat.mod_eq_of_lt h, Nat.and_two_pow_sub_one_eq_mod]

/-- The mask of a row that is recognised by its class and its low nibble. -/
theorem toNat_and_F00F (w : Word) : (w &&& 0xF00F).toNat = w.toNat / 4096 * 4096 + w.toNat % 16 := by
  have h : (w &&& BitVec.ofNat 16 (2 ^ 4 - 1)).toNat = w.toNat % 16 := toNat_and_low w 4 (by omega)
  rw [show (0xF00F : Word) = 0xF000 ||| BitVec.ofNat 16 (2 ^ 4 - 1) from rfl, BitVec.and_or_distrib_left, BitVec.toNat_or,
    toNat_and_F000, h, show w.toNat / 4096 * 4096 = 2 ^ 12 * (w.toNat / 4096) by omega,
    Nat.two_pow_add_eq_or_of_lt (by omega)]

/-- The mask of a row that is recognised by its class and its low byte. -/
theorem toNat_and_F0FF (w : Word) : (w &&& 0xF0FF).toNat = w.toNat / 4096 * 4096 + w.toNat % 256 := by
  have h : (w &&& BitVec.ofNat 16 (2 ^ 8 - 1)).toNat = w.toNat % 256 := toNat_and_low w 8 (by omega)
  rw [show (0xF0FF : Word) = 0xF000 ||| BitVec.ofNat 16 (2 ^ 8 - 1) from rfl, BitVec.and_or_distrib_left, BitVec.toNat_or,
    toNat_and_F000, h, show w.toNat / 4096 * 4096 = 2 ^ 12 * (w.toNat / 4096) by omega,
    Nat.two_pow_add_eq_or_of_lt (by omega)]

/-- The mask of a row whose every bit is fixed. -/
theorem and_FFFF (w : Word) : w &&& 0xFFFF = w := by
  have : (0xFFFF : Word) = BitVec.allOnes 16 := rfl
  rw [this, BitVec.and_allOnes]

@[simp] theorem nnnOf_formatNNN (c : Nibble) (nnn : Addr) : nnnOf (formatNNN c nnn) = nnn := by
  apply BitVec.eq_of_toNat_eq
  have := nnn.isLt
  rw [toNat_nnnOf, toNat_formatNNN]
  omega

@[simp] theorem xOf_formatXNN (c : Nibble) (x : Reg) (nn : Byte) : xOf (formatXNN c x nn) = x := by
  apply Fin.ext
  have := nn.isLt
  rw [val_xOf, toNat_formatXNN]
  omega

@[simp] theorem nnOf_formatXNN (c : Nibble) (x : Reg) (nn : Byte) : nnOf (formatXNN c x nn) = nn := by
  apply BitVec.eq_of_toNat_eq
  have := nn.isLt
  rw [toNat_nnOf, toNat_formatXNN]
  omega

@[simp] theorem xOf_formatXYN (c : Nibble) (x y : Reg) (n : Nibble) : xOf (formatXYN c x y n) = x := by
  apply Fin.ext
  have := n.isLt
  rw [val_xOf, toNat_formatXYN]
  omega

@[simp] theorem yOf_formatXYN (c : Nibble) (x y : Reg) (n : Nibble) : yOf (formatXYN c x y n) = y := by
  apply Fin.ext
  have := n.isLt
  rw [val_yOf, toNat_formatXYN]
  omega

@[simp] theorem nOf_formatXYN (c : Nibble) (x y : Reg) (n : Nibble) : nOf (formatXYN c x y n) = n := by
  apply BitVec.eq_of_toNat_eq
  have := n.isLt
  rw [toNat_nOf, toNat_formatXYN]
  omega

/-- A word of format NNN is recognised by its class. -/
theorem formatNNN_and_class (c : Nibble) (nnn : Addr) : formatNNN c nnn &&& 0xF000 = formatNNN c 0 := by
  apply BitVec.eq_of_toNat_eq
  have := nnn.isLt
  rw [toNat_and_F000, toNat_formatNNN, toNat_formatNNN, show (0 : Addr).toNat = 0 from rfl]
  omega

/-- A word of format XNN is recognised by its class. -/
theorem formatXNN_and_class (c : Nibble) (x : Reg) (nn : Byte) : formatXNN c x nn &&& 0xF000 = formatXNN c 0 0 := by
  apply BitVec.eq_of_toNat_eq
  have := nn.isLt
  rw [toNat_and_F000, toNat_formatXNN, toNat_formatXNN, show (0 : Byte).toNat = 0 from rfl, show (0 : Reg).val = 0 from rfl]
  omega

/-- A word of format XNN is recognised by its class and its low byte. -/
theorem formatXNN_and_byte (c : Nibble) (x : Reg) (nn : Byte) : formatXNN c x nn &&& 0xF0FF = formatXNN c 0 nn := by
  apply BitVec.eq_of_toNat_eq
  have := nn.isLt
  rw [toNat_and_F0FF, toNat_formatXNN, toNat_formatXNN, show (0 : Reg).val = 0 from rfl]
  omega

/-- A word of format XYN is recognised by its class. -/
theorem formatXYN_and_class (c : Nibble) (x y : Reg) (n : Nibble) : formatXYN c x y n &&& 0xF000 = formatXYN c 0 0 0 := by
  apply BitVec.eq_of_toNat_eq
  have := n.isLt
  rw [toNat_and_F000, toNat_formatXYN, toNat_formatXYN, show (0 : Nibble).toNat = 0 from rfl, show (0 : Reg).val = 0 from rfl]
  omega

/-- A word of format XYN is recognised by its class and its low nibble. -/
theorem formatXYN_and_nibble (c : Nibble) (x y : Reg) (n : Nibble) : formatXYN c x y n &&& 0xF00F = formatXYN c 0 0 n := by
  apply BitVec.eq_of_toNat_eq
  have := n.isLt
  rw [toNat_and_F00F, toNat_formatXYN, toNat_formatXYN, show (0 : Reg).val = 0 from rfl]
  omega

/-- The bits of a word that `8xyN` and the like leave out: the low nibble. -/
theorem toNat_and_FFF0 (w : Word) : (w &&& 0xFFF0).toNat = w.toNat / 16 * 16 := by
  have hw := w.isLt
  rw [BitVec.toNat_and]
  apply Nat.eq_of_testBit_eq
  intro k
  show _ = (w.toNat / 2 ^ 4 * 2 ^ 4).testBit k
  rw [Nat.testBit_and, Nat.testBit_mul_two_pow, Nat.testBit_div_two_pow]
  by_cases hk : k < 16
  · interval_cases k <;> simp +decide
  · have h : w.toNat.testBit k = false :=
      Nat.testBit_lt_two_pow (Nat.lt_of_lt_of_le hw (Nat.pow_le_pow_right (by omega) (by omega)))
    rw [Nat.sub_add_cancel (by omega), h]
    simp

/-- The high byte. -/
theorem toNat_and_FF00 (w : Word) : (w &&& 0xFF00).toNat = w.toNat / 256 * 256 := by
  have hw := w.isLt
  rw [BitVec.toNat_and]
  apply Nat.eq_of_testBit_eq
  intro k
  rw [show (256 : Nat) = 2 ^ 8 from rfl, Nat.testBit_and, Nat.testBit_mul_two_pow, Nat.testBit_div_two_pow]
  by_cases hk : k < 16
  · interval_cases k <;> simp +decide
  · have h : w.toNat.testBit k = false :=
      Nat.testBit_lt_two_pow (Nat.lt_of_lt_of_le hw (Nat.pow_le_pow_right (by omega) (by omega)))
    rw [Nat.sub_add_cancel (by omega), h]
    simp

/-- Everything but the second nibble. -/
theorem toNat_and_FF0F (w : Word) : (w &&& 0xFF0F).toNat = w.toNat / 256 * 256 + w.toNat % 16 := by
  have h : (w &&& BitVec.ofNat 16 (2 ^ 4 - 1)).toNat = w.toNat % 16 := toNat_and_low w 4 (by omega)
  rw [show (0xFF0F : Word) = 0xFF00 ||| BitVec.ofNat 16 (2 ^ 4 - 1) from rfl, BitVec.and_or_distrib_left, BitVec.toNat_or,
    toNat_and_FF00, h, show w.toNat / 256 * 256 = 2 ^ 8 * (w.toNat / 256) by omega,
    Nat.two_pow_add_eq_or_of_lt (by omega)]

/-- What the mask F000 says of a word: its class. -/
theorem class_of_and_F000 {w p : Word} (h : w &&& 0xF000 = p) : w.toNat / 4096 = p.toNat / 4096 := by
  rw [← h, toNat_and_F000]
  omega

/-- What the mask F00F says of a word: its class and its low nibble. -/
theorem fields_of_and_F00F {w p : Word} (h : w &&& 0xF00F = p) :
    w.toNat / 4096 = p.toNat / 4096 ∧ w.toNat % 16 = p.toNat % 16 := by
  rw [← h, toNat_and_F00F]
  omega

/-- What the mask F0FF says of a word: its class and its low byte. -/
theorem fields_of_and_F0FF {w p : Word} (h : w &&& 0xF0FF = p) :
    w.toNat / 4096 = p.toNat / 4096 ∧ w.toNat % 256 = p.toNat % 256 := by
  rw [← h, toNat_and_F0FF]
  omega

theorem nOf_eq_iff (w : Word) (n : Nibble) : nOf w = n ↔ w.toNat % 16 = n.toNat := by rw [BitVec.toNat_eq, toNat_nOf]

theorem nnOf_eq_iff (w : Word) (nn : Byte) : nnOf w = nn ↔ w.toNat % 256 = nn.toNat := by rw [BitVec.toNat_eq, toNat_nnOf]

theorem nnnOf_eq_iff (w : Word) (nnn : Addr) : nnnOf w = nnn ↔ w.toNat % 4096 = nnn.toNat := by
  rw [BitVec.toNat_eq, toNat_nnnOf]

end Sys2Proof
end

