-- ==== Sys2Proof/Laws/Memory.lean ====
section
/-! SUPPORT. The memory operations: what a read gives after a write, and that every write keeps the canonical form. -/

namespace Sys2Proof.Machine.Memory

theorem read_of_lt_all (m : Memory) (a : Nat) (h : ∀ p ∈ m, a < p.1) : m.read a = unlisted a := by
  induction m with
  | nil => rfl
  | cons p m ih =>
    have hp := h p (by simp)
    simp only [read, if_neg (show ¬ p.1 = a by omega)]
    exact ih fun q hq => h q (List.mem_cons_of_mem _ hq)

/-- Every key of the written memory is one of the old keys or the written address. -/
theorem key_mem_write (m : Memory) (a : Nat) (b : Byte) (p : Host.Cell) (h : p ∈ m.write a b) :
    p ∈ m ∨ (p = (a, b) ∧ b ≠ unlisted a) := by
  induction m with
  | nil => simp only [write] at h; split at h <;> simp_all
  | cons q m ih =>
    simp only [write] at h
    split_ifs at h <;> simp only [List.mem_cons] at h ⊢ <;> grind

/-- The rising order is kept by a write at any address. -/
theorem write_sorted (m : Memory) (a : Nat) (b : Byte) (hm : m.Pairwise fun p q => p.1 < q.1) :
    (m.write a b).Pairwise fun p q => p.1 < q.1 := by
  induction m with
  | nil => simp only [write]; split <;> simp
  | cons q m ih =>
    rw [List.pairwise_cons] at hm
    simp only [write]
    split_ifs with h1 h2 h3 h4
    · refine List.pairwise_cons.2 ⟨fun p hp => ?_, ih hm.2⟩
      rcases key_mem_write m a b p hp with h | ⟨rfl, -⟩
      · exact hm.1 p h
      · exact h1
    · exact hm.2
    · exact List.pairwise_cons.2 ⟨fun p hp => h2 ▸ hm.1 p hp, hm.2⟩
    · exact List.pairwise_cons.2 ⟨hm.1, hm.2⟩
    · refine List.pairwise_cons.2 ⟨fun p hp => ?_, List.pairwise_cons.2 ⟨hm.1, hm.2⟩⟩
      have hq : q.1 ≤ p.1 := by
        rcases List.mem_cons.1 hp with h | h
        · rw [h]
        · exact Nat.le_of_lt (hm.1 p h)
      show a < p.1
      omega

/-- A write keeps the canonical form. -/
theorem write_wf (m : Memory) (a : Nat) (b : Byte) (hm : m.wf) (ha : a < Config.memSize) : (m.write a b).wf := by
  refine ⟨write_sorted m a b hm.1, fun p hp => ?_⟩
  rcases key_mem_write m a b p hp with h | ⟨rfl, h⟩
  · exact hm.2 p h
  · exact ⟨ha, h⟩

/-- Read after write, for a memory with rising addresses. -/
theorem read_write (m : Memory) (a : Nat) (b : Byte) (c : Nat) (hm : m.Pairwise fun p q => p.1 < q.1) :
    (m.write a b).read c = if c = a then b else m.read c := by
  induction m with
  | nil => simp only [write]; split <;> simp only [read] <;> grind
  | cons q m ih =>
    rw [List.pairwise_cons] at hm
    have ih := ih hm.2
    have hlt : ∀ d, d ≤ q.1 → read m d = unlisted d := fun d hd =>
      read_of_lt_all m d fun p hp => Nat.lt_of_le_of_lt hd (hm.1 p hp)
    simp only [write]
    split_ifs <;> grind [read]

theorem writeBlock_wf (m : Memory) (a : Nat) (bs : List Byte) (hm : m.wf) (ha : a + bs.length ≤ Config.memSize) :
    (m.writeBlock a bs).wf := by
  induction bs generalizing m a with
  | nil => exact hm
  | cons b bs ih =>
    simp only [List.length_cons] at ha
    exact ih _ _ (write_wf m a b hm (by omega)) (by omega)

/-- Read after a block write: the block's bytes inside it, the old byte outside it. -/
theorem read_writeBlock (m : Memory) (a : Nat) (bs : List Byte) (c : Nat) (hm : m.Pairwise fun p q => p.1 < q.1) :
    (m.writeBlock a bs).read c = if a ≤ c then bs.getD (c - a) (m.read c) else m.read c := by
  induction bs generalizing m a with
  | nil => simp [writeBlock]
  | cons b bs ih =>
    rw [writeBlock, ih _ _ (write_sorted m a b hm), read_write m a b c hm]
    by_cases h : a ≤ c
    · by_cases h2 : c = a
      · subst h2; simp
      · obtain ⟨d, rfl⟩ := Nat.exists_eq_add_of_lt (Nat.lt_of_le_of_ne h (Ne.symm h2))
        have e1 : a + d + 1 - (a + 1) = d := by omega
        have e2 : a + d + 1 - a = d + 1 := by omega
        rw [if_pos (by omega), if_neg (by omega), if_pos h, e1, e2, List.getD_cons_succ]
    · rw [if_neg (by omega), if_neg (by omega), if_neg h]

@[simp] theorem length_readBlock (m : Memory) (a n : Nat) : (m.readBlock a n).length = n := by
  induction n generalizing a with
  | zero => rfl
  | succ n ih => simp [readBlock, ih]

theorem getElem?_readBlock (m : Memory) (a n k : Nat) :
    (m.readBlock a n)[k]? = if k < n then some (m.read (a + k)) else none := by
  induction n generalizing a k with
  | zero => simp [readBlock]
  | succ n ih =>
    cases k with
    | zero => simp [readBlock]
    | succ k => simp [readBlock, ih, Nat.add_right_comm, Nat.add_assoc]

/-- A write leaves every other address alone, whatever form the list has. -/
theorem read_write_ne (m : Memory) (a : Nat) (b : Byte) (c : Nat) (h : c ≠ a) : (m.write a b).read c = m.read c := by
  induction m with
  | nil => simp only [write]; split <;> simp only [read]; grind
  | cons q m ih => simp only [write]; split_ifs <;> simp only [read] <;> grind

/-- A block write leaves every address outside the block alone. -/
theorem read_writeBlock_outside (m : Memory) (a : Nat) (bs : List Byte) (c : Nat) (h : ∀ k, k < bs.length → c ≠ a + k) :
    (m.writeBlock a bs).read c = m.read c := by
  induction bs generalizing m a with
  | nil => rfl
  | cons b bs ih =>
    rw [writeBlock, ih (m.write a b) (a + 1) fun k hk => ?_, read_write_ne m a b c]
    · simpa using h 0 (by simp)
    · have := h (k + 1) (by simpa using hk)
      omega

theorem writeBlock_sorted (m : Memory) (a : Nat) (bs : List Byte) (hm : m.Pairwise fun p q => p.1 < q.1) :
    (m.writeBlock a bs).Pairwise fun p q => p.1 < q.1 := by
  induction bs generalizing m a with
  | nil => exact hm
  | cons b bs ih => exact ih _ _ (write_sorted m a b hm)

/-- The form is canonical: two memories in it that read the same everywhere are the same list. -/
theorem ext_of_wf (m n : Memory) (hm : m.wf) (hn : n.wf) (h : ∀ a, m.read a = n.read a) : m = n := by
  induction m generalizing n with
  | nil =>
    cases n with
    | nil => rfl
    | cons q n => exact absurd (by simpa [read] using (h q.1).symm) (hn.2 q (by simp)).2
  | cons p m ih =>
    have pm : ∀ x ∈ m, p.1 < x.1 := (List.pairwise_cons.1 hm.1).1
    cases n with
    | nil => exact absurd (by simpa [read] using h p.1) (hm.2 p (by simp)).2
    | cons q n =>
      have qn : ∀ x ∈ n, q.1 < x.1 := (List.pairwise_cons.1 hn.1).1
      have hk : p.1 = q.1 := by
        rcases Nat.lt_trichotomy p.1 q.1 with hl | he | hl
        · have e := read_of_lt_all (q :: n) p.1 fun x hx => by
            rcases List.mem_cons.1 hx with rfl | hx
            · exact hl
            · have := qn x hx; omega
          exact absurd (by rw [← e, ← h p.1]; simp [read]) (hm.2 p (by simp)).2
        · exact he
        · have e := read_of_lt_all (p :: m) q.1 fun x hx => by
            rcases List.mem_cons.1 hx with rfl | hx
            · exact hl
            · have := pm x hx; omega
          exact absurd (by rw [← e, h q.1]; simp [read]) (hn.2 q (by simp)).2
      have hv : p.2 = q.2 := by simpa [read, hk] using h p.1
      have hpq : p = q := Prod.ext hk hv
      subst hpq
      refine congrArg (p :: ·) (ih n ⟨(List.pairwise_cons.1 hm.1).2, fun x hx => hm.2 x (by simp [hx])⟩
        ⟨(List.pairwise_cons.1 hn.1).2, fun x hx => hn.2 x (by simp [hx])⟩ fun a => ?_)
      by_cases ha : p.1 = a
      · rw [read_of_lt_all m a fun x hx => ha ▸ pm x hx, read_of_lt_all n a fun x hx => ha ▸ qn x hx]
      · simpa [read, ha] using h a

end Sys2Proof.Machine.Memory
end

