-- ==== Sys2Proof/Laws/State.lean ====
section
/-! SUPPORT. One lemma for each field and each update of State, true by rfl, so that no later proof unfolds a record
update. -/

namespace Sys2Proof.Machine.State

variable (s : State)

@[simp] theorem setReg_v (k : Reg) (b : Byte) : (s.setReg k b).v = s.v.set k.val b := rfl
@[simp] theorem setReg_i (k : Reg) (b : Byte) : (s.setReg k b).i = s.i := rfl
@[simp] theorem setReg_pc (k : Reg) (b : Byte) : (s.setReg k b).pc = s.pc := rfl
@[simp] theorem setReg_sp (k : Reg) (b : Byte) : (s.setReg k b).sp = s.sp := rfl
@[simp] theorem setReg_stack (k : Reg) (b : Byte) : (s.setReg k b).stack = s.stack := rfl
@[simp] theorem setReg_dt (k : Reg) (b : Byte) : (s.setReg k b).dt = s.dt := rfl
@[simp] theorem setReg_st (k : Reg) (b : Byte) : (s.setReg k b).st = s.st := rfl
@[simp] theorem setReg_mem (k : Reg) (b : Byte) : (s.setReg k b).mem = s.mem := rfl
@[simp] theorem setReg_fb (k : Reg) (b : Byte) : (s.setReg k b).fb = s.fb := rfl
@[simp] theorem setReg_key (k : Reg) (b : Byte) : (s.setReg k b).key = s.key := rfl
@[simp] theorem setReg_font (k : Reg) (b : Byte) : (s.setReg k b).font = s.font := rfl
@[simp] theorem setReg_pending (k : Reg) (b : Byte) : (s.setReg k b).pending = s.pending := rfl
@[simp] theorem setReg_rndIn (k : Reg) (b : Byte) : (s.setReg k b).rndIn = s.rndIn := rfl
@[simp] theorem setReg_rndDraws (k : Reg) (b : Byte) : (s.setReg k b).rndDraws = s.rndDraws := rfl

@[simp] theorem setFlag_v (f : Byte) : (s.setFlag f).v = s.v.set vf.val f := rfl
@[simp] theorem setFlag_i (f : Byte) : (s.setFlag f).i = s.i := rfl
@[simp] theorem setFlag_pc (f : Byte) : (s.setFlag f).pc = s.pc := rfl
@[simp] theorem setFlag_sp (f : Byte) : (s.setFlag f).sp = s.sp := rfl
@[simp] theorem setFlag_stack (f : Byte) : (s.setFlag f).stack = s.stack := rfl
@[simp] theorem setFlag_dt (f : Byte) : (s.setFlag f).dt = s.dt := rfl
@[simp] theorem setFlag_st (f : Byte) : (s.setFlag f).st = s.st := rfl
@[simp] theorem setFlag_mem (f : Byte) : (s.setFlag f).mem = s.mem := rfl
@[simp] theorem setFlag_fb (f : Byte) : (s.setFlag f).fb = s.fb := rfl
@[simp] theorem setFlag_key (f : Byte) : (s.setFlag f).key = s.key := rfl
@[simp] theorem setFlag_font (f : Byte) : (s.setFlag f).font = s.font := rfl
@[simp] theorem setFlag_pending (f : Byte) : (s.setFlag f).pending = s.pending := rfl
@[simp] theorem setFlag_rndIn (f : Byte) : (s.setFlag f).rndIn = s.rndIn := rfl
@[simp] theorem setFlag_rndDraws (f : Byte) : (s.setFlag f).rndDraws = s.rndDraws := rfl

@[simp] theorem setPc_v (a : Word) : (s.setPc a).v = s.v := rfl
@[simp] theorem setPc_i (a : Word) : (s.setPc a).i = s.i := rfl
@[simp] theorem setPc_pc (a : Word) : (s.setPc a).pc = a := rfl
@[simp] theorem setPc_sp (a : Word) : (s.setPc a).sp = s.sp := rfl
@[simp] theorem setPc_stack (a : Word) : (s.setPc a).stack = s.stack := rfl
@[simp] theorem setPc_dt (a : Word) : (s.setPc a).dt = s.dt := rfl
@[simp] theorem setPc_st (a : Word) : (s.setPc a).st = s.st := rfl
@[simp] theorem setPc_mem (a : Word) : (s.setPc a).mem = s.mem := rfl
@[simp] theorem setPc_fb (a : Word) : (s.setPc a).fb = s.fb := rfl
@[simp] theorem setPc_key (a : Word) : (s.setPc a).key = s.key := rfl
@[simp] theorem setPc_font (a : Word) : (s.setPc a).font = s.font := rfl
@[simp] theorem setPc_pending (a : Word) : (s.setPc a).pending = s.pending := rfl
@[simp] theorem setPc_rndIn (a : Word) : (s.setPc a).rndIn = s.rndIn := rfl
@[simp] theorem setPc_rndDraws (a : Word) : (s.setPc a).rndDraws = s.rndDraws := rfl

@[simp] theorem setI_v (a : Word) : (s.setI a).v = s.v := rfl
@[simp] theorem setI_i (a : Word) : (s.setI a).i = a := rfl
@[simp] theorem setI_pc (a : Word) : (s.setI a).pc = s.pc := rfl
@[simp] theorem setI_sp (a : Word) : (s.setI a).sp = s.sp := rfl
@[simp] theorem setI_stack (a : Word) : (s.setI a).stack = s.stack := rfl
@[simp] theorem setI_dt (a : Word) : (s.setI a).dt = s.dt := rfl
@[simp] theorem setI_st (a : Word) : (s.setI a).st = s.st := rfl
@[simp] theorem setI_mem (a : Word) : (s.setI a).mem = s.mem := rfl
@[simp] theorem setI_fb (a : Word) : (s.setI a).fb = s.fb := rfl
@[simp] theorem setI_key (a : Word) : (s.setI a).key = s.key := rfl
@[simp] theorem setI_font (a : Word) : (s.setI a).font = s.font := rfl
@[simp] theorem setI_pending (a : Word) : (s.setI a).pending = s.pending := rfl
@[simp] theorem setI_rndIn (a : Word) : (s.setI a).rndIn = s.rndIn := rfl
@[simp] theorem setI_rndDraws (a : Word) : (s.setI a).rndDraws = s.rndDraws := rfl

@[simp] theorem setDt_v (b : Byte) : (s.setDt b).v = s.v := rfl
@[simp] theorem setDt_i (b : Byte) : (s.setDt b).i = s.i := rfl
@[simp] theorem setDt_pc (b : Byte) : (s.setDt b).pc = s.pc := rfl
@[simp] theorem setDt_sp (b : Byte) : (s.setDt b).sp = s.sp := rfl
@[simp] theorem setDt_stack (b : Byte) : (s.setDt b).stack = s.stack := rfl
@[simp] theorem setDt_dt (b : Byte) : (s.setDt b).dt = b := rfl
@[simp] theorem setDt_st (b : Byte) : (s.setDt b).st = s.st := rfl
@[simp] theorem setDt_mem (b : Byte) : (s.setDt b).mem = s.mem := rfl
@[simp] theorem setDt_fb (b : Byte) : (s.setDt b).fb = s.fb := rfl
@[simp] theorem setDt_key (b : Byte) : (s.setDt b).key = s.key := rfl
@[simp] theorem setDt_font (b : Byte) : (s.setDt b).font = s.font := rfl
@[simp] theorem setDt_pending (b : Byte) : (s.setDt b).pending = s.pending := rfl
@[simp] theorem setDt_rndIn (b : Byte) : (s.setDt b).rndIn = s.rndIn := rfl
@[simp] theorem setDt_rndDraws (b : Byte) : (s.setDt b).rndDraws = s.rndDraws := rfl

@[simp] theorem setSt_v (b : Byte) : (s.setSt b).v = s.v := rfl
@[simp] theorem setSt_i (b : Byte) : (s.setSt b).i = s.i := rfl
@[simp] theorem setSt_pc (b : Byte) : (s.setSt b).pc = s.pc := rfl
@[simp] theorem setSt_sp (b : Byte) : (s.setSt b).sp = s.sp := rfl
@[simp] theorem setSt_stack (b : Byte) : (s.setSt b).stack = s.stack := rfl
@[simp] theorem setSt_dt (b : Byte) : (s.setSt b).dt = s.dt := rfl
@[simp] theorem setSt_st (b : Byte) : (s.setSt b).st = b := rfl
@[simp] theorem setSt_mem (b : Byte) : (s.setSt b).mem = s.mem := rfl
@[simp] theorem setSt_fb (b : Byte) : (s.setSt b).fb = s.fb := rfl
@[simp] theorem setSt_key (b : Byte) : (s.setSt b).key = s.key := rfl
@[simp] theorem setSt_font (b : Byte) : (s.setSt b).font = s.font := rfl
@[simp] theorem setSt_pending (b : Byte) : (s.setSt b).pending = s.pending := rfl
@[simp] theorem setSt_rndIn (b : Byte) : (s.setSt b).rndIn = s.rndIn := rfl
@[simp] theorem setSt_rndDraws (b : Byte) : (s.setSt b).rndDraws = s.rndDraws := rfl

@[simp] theorem setMem_v (m : Memory) : (s.setMem m).v = s.v := rfl
@[simp] theorem setMem_i (m : Memory) : (s.setMem m).i = s.i := rfl
@[simp] theorem setMem_pc (m : Memory) : (s.setMem m).pc = s.pc := rfl
@[simp] theorem setMem_sp (m : Memory) : (s.setMem m).sp = s.sp := rfl
@[simp] theorem setMem_stack (m : Memory) : (s.setMem m).stack = s.stack := rfl
@[simp] theorem setMem_dt (m : Memory) : (s.setMem m).dt = s.dt := rfl
@[simp] theorem setMem_st (m : Memory) : (s.setMem m).st = s.st := rfl
@[simp] theorem setMem_mem (m : Memory) : (s.setMem m).mem = m := rfl
@[simp] theorem setMem_fb (m : Memory) : (s.setMem m).fb = s.fb := rfl
@[simp] theorem setMem_key (m : Memory) : (s.setMem m).key = s.key := rfl
@[simp] theorem setMem_font (m : Memory) : (s.setMem m).font = s.font := rfl
@[simp] theorem setMem_pending (m : Memory) : (s.setMem m).pending = s.pending := rfl
@[simp] theorem setMem_rndIn (m : Memory) : (s.setMem m).rndIn = s.rndIn := rfl
@[simp] theorem setMem_rndDraws (m : Memory) : (s.setMem m).rndDraws = s.rndDraws := rfl

@[simp] theorem setFb_v (f : Framebuffer) : (s.setFb f).v = s.v := rfl
@[simp] theorem setFb_i (f : Framebuffer) : (s.setFb f).i = s.i := rfl
@[simp] theorem setFb_pc (f : Framebuffer) : (s.setFb f).pc = s.pc := rfl
@[simp] theorem setFb_sp (f : Framebuffer) : (s.setFb f).sp = s.sp := rfl
@[simp] theorem setFb_stack (f : Framebuffer) : (s.setFb f).stack = s.stack := rfl
@[simp] theorem setFb_dt (f : Framebuffer) : (s.setFb f).dt = s.dt := rfl
@[simp] theorem setFb_st (f : Framebuffer) : (s.setFb f).st = s.st := rfl
@[simp] theorem setFb_mem (f : Framebuffer) : (s.setFb f).mem = s.mem := rfl
@[simp] theorem setFb_fb (f : Framebuffer) : (s.setFb f).fb = f := rfl
@[simp] theorem setFb_key (f : Framebuffer) : (s.setFb f).key = s.key := rfl
@[simp] theorem setFb_font (f : Framebuffer) : (s.setFb f).font = s.font := rfl
@[simp] theorem setFb_pending (f : Framebuffer) : (s.setFb f).pending = s.pending := rfl
@[simp] theorem setFb_rndIn (f : Framebuffer) : (s.setFb f).rndIn = s.rndIn := rfl
@[simp] theorem setFb_rndDraws (f : Framebuffer) : (s.setFb f).rndDraws = s.rndDraws := rfl

@[simp] theorem advance_v : (s.advance).v = s.v := rfl
@[simp] theorem advance_i : (s.advance).i = s.i := rfl
@[simp] theorem advance_pc : (s.advance).pc = s.pc + 2 := rfl
@[simp] theorem advance_sp : (s.advance).sp = s.sp := rfl
@[simp] theorem advance_stack : (s.advance).stack = s.stack := rfl
@[simp] theorem advance_dt : (s.advance).dt = s.dt := rfl
@[simp] theorem advance_st : (s.advance).st = s.st := rfl
@[simp] theorem advance_mem : (s.advance).mem = s.mem := rfl
@[simp] theorem advance_fb : (s.advance).fb = s.fb := rfl
@[simp] theorem advance_key : (s.advance).key = s.key := rfl
@[simp] theorem advance_font : (s.advance).font = s.font := rfl
@[simp] theorem advance_pending : (s.advance).pending = s.pending := rfl
@[simp] theorem advance_rndIn : (s.advance).rndIn = s.rndIn := rfl
@[simp] theorem advance_rndDraws : (s.advance).rndDraws = s.rndDraws := rfl

@[simp] theorem skip_v : (s.skip).v = s.v := rfl
@[simp] theorem skip_i : (s.skip).i = s.i := rfl
@[simp] theorem skip_pc : (s.skip).pc = s.pc + 4 := rfl
@[simp] theorem skip_sp : (s.skip).sp = s.sp := rfl
@[simp] theorem skip_stack : (s.skip).stack = s.stack := rfl
@[simp] theorem skip_dt : (s.skip).dt = s.dt := rfl
@[simp] theorem skip_st : (s.skip).st = s.st := rfl
@[simp] theorem skip_mem : (s.skip).mem = s.mem := rfl
@[simp] theorem skip_fb : (s.skip).fb = s.fb := rfl
@[simp] theorem skip_key : (s.skip).key = s.key := rfl
@[simp] theorem skip_font : (s.skip).font = s.font := rfl
@[simp] theorem skip_pending : (s.skip).pending = s.pending := rfl
@[simp] theorem skip_rndIn : (s.skip).rndIn = s.rndIn := rfl
@[simp] theorem skip_rndDraws : (s.skip).rndDraws = s.rndDraws := rfl

@[simp] theorem pushReturn_v (a : Word) : (s.pushReturn a).v = s.v := rfl
@[simp] theorem pushReturn_i (a : Word) : (s.pushReturn a).i = s.i := rfl
@[simp] theorem pushReturn_pc (a : Word) : (s.pushReturn a).pc = s.pc := rfl
@[simp] theorem pushReturn_sp (a : Word) : (s.pushReturn a).sp = s.sp + 1 := rfl
@[simp] theorem pushReturn_stack (a : Word) : (s.pushReturn a).stack = s.stack.set (s.sp + 1) a := rfl
@[simp] theorem pushReturn_dt (a : Word) : (s.pushReturn a).dt = s.dt := rfl
@[simp] theorem pushReturn_st (a : Word) : (s.pushReturn a).st = s.st := rfl
@[simp] theorem pushReturn_mem (a : Word) : (s.pushReturn a).mem = s.mem := rfl
@[simp] theorem pushReturn_fb (a : Word) : (s.pushReturn a).fb = s.fb := rfl
@[simp] theorem pushReturn_key (a : Word) : (s.pushReturn a).key = s.key := rfl
@[simp] theorem pushReturn_font (a : Word) : (s.pushReturn a).font = s.font := rfl
@[simp] theorem pushReturn_pending (a : Word) : (s.pushReturn a).pending = s.pending := rfl
@[simp] theorem pushReturn_rndIn (a : Word) : (s.pushReturn a).rndIn = s.rndIn := rfl
@[simp] theorem pushReturn_rndDraws (a : Word) : (s.pushReturn a).rndDraws = s.rndDraws := rfl

@[simp] theorem popReturn_v (a : Word) : (s.popReturn a).v = s.v := rfl
@[simp] theorem popReturn_i (a : Word) : (s.popReturn a).i = s.i := rfl
@[simp] theorem popReturn_pc (a : Word) : (s.popReturn a).pc = a := rfl
@[simp] theorem popReturn_sp (a : Word) : (s.popReturn a).sp = s.sp - 1 := rfl
@[simp] theorem popReturn_stack (a : Word) : (s.popReturn a).stack = s.stack := rfl
@[simp] theorem popReturn_dt (a : Word) : (s.popReturn a).dt = s.dt := rfl
@[simp] theorem popReturn_st (a : Word) : (s.popReturn a).st = s.st := rfl
@[simp] theorem popReturn_mem (a : Word) : (s.popReturn a).mem = s.mem := rfl
@[simp] theorem popReturn_fb (a : Word) : (s.popReturn a).fb = s.fb := rfl
@[simp] theorem popReturn_key (a : Word) : (s.popReturn a).key = s.key := rfl
@[simp] theorem popReturn_font (a : Word) : (s.popReturn a).font = s.font := rfl
@[simp] theorem popReturn_pending (a : Word) : (s.popReturn a).pending = s.pending := rfl
@[simp] theorem popReturn_rndIn (a : Word) : (s.popReturn a).rndIn = s.rndIn := rfl
@[simp] theorem popReturn_rndDraws (a : Word) : (s.popReturn a).rndDraws = s.rndDraws := rfl

@[simp] theorem storeBlock_v (bytes : List Byte) : (s.storeBlock bytes).v = s.v := rfl
@[simp] theorem storeBlock_i (bytes : List Byte) : (s.storeBlock bytes).i = s.i := rfl
@[simp] theorem storeBlock_pc (bytes : List Byte) : (s.storeBlock bytes).pc = s.pc := rfl
@[simp] theorem storeBlock_sp (bytes : List Byte) : (s.storeBlock bytes).sp = s.sp := rfl
@[simp] theorem storeBlock_stack (bytes : List Byte) : (s.storeBlock bytes).stack = s.stack := rfl
@[simp] theorem storeBlock_dt (bytes : List Byte) : (s.storeBlock bytes).dt = s.dt := rfl
@[simp] theorem storeBlock_st (bytes : List Byte) : (s.storeBlock bytes).st = s.st := rfl
@[simp] theorem storeBlock_mem (bytes : List Byte) : (s.storeBlock bytes).mem = s.mem.writeBlock (s.effectiveAddress 0) bytes := rfl
@[simp] theorem storeBlock_fb (bytes : List Byte) : (s.storeBlock bytes).fb = s.fb := rfl
@[simp] theorem storeBlock_key (bytes : List Byte) : (s.storeBlock bytes).key = s.key := rfl
@[simp] theorem storeBlock_font (bytes : List Byte) : (s.storeBlock bytes).font = s.font := rfl
@[simp] theorem storeBlock_pending (bytes : List Byte) : (s.storeBlock bytes).pending = s.pending := rfl
@[simp] theorem storeBlock_rndIn (bytes : List Byte) : (s.storeBlock bytes).rndIn = s.rndIn := rfl
@[simp] theorem storeBlock_rndDraws (bytes : List Byte) : (s.storeBlock bytes).rndDraws = s.rndDraws := rfl

@[simp] theorem commitDrawing_v (d : Drawing) : (s.commitDrawing d).v = s.v.set vf.val (flagByte d.hit) := rfl
@[simp] theorem commitDrawing_i (d : Drawing) : (s.commitDrawing d).i = s.i := rfl
@[simp] theorem commitDrawing_pc (d : Drawing) : (s.commitDrawing d).pc = s.pc := rfl
@[simp] theorem commitDrawing_sp (d : Drawing) : (s.commitDrawing d).sp = s.sp := rfl
@[simp] theorem commitDrawing_stack (d : Drawing) : (s.commitDrawing d).stack = s.stack := rfl
@[simp] theorem commitDrawing_dt (d : Drawing) : (s.commitDrawing d).dt = s.dt := rfl
@[simp] theorem commitDrawing_st (d : Drawing) : (s.commitDrawing d).st = s.st := rfl
@[simp] theorem commitDrawing_mem (d : Drawing) : (s.commitDrawing d).mem = s.mem := rfl
@[simp] theorem commitDrawing_fb (d : Drawing) : (s.commitDrawing d).fb = d.fb := rfl
@[simp] theorem commitDrawing_key (d : Drawing) : (s.commitDrawing d).key = s.key := rfl
@[simp] theorem commitDrawing_font (d : Drawing) : (s.commitDrawing d).font = s.font := rfl
@[simp] theorem commitDrawing_pending (d : Drawing) : (s.commitDrawing d).pending = s.pending := rfl
@[simp] theorem commitDrawing_rndIn (d : Drawing) : (s.commitDrawing d).rndIn = s.rndIn := rfl
@[simp] theorem commitDrawing_rndDraws (d : Drawing) : (s.commitDrawing d).rndDraws = s.rndDraws := rfl

@[simp] theorem tick_v : (s.tick).v = s.v := rfl
@[simp] theorem tick_i : (s.tick).i = s.i := rfl
@[simp] theorem tick_pc : (s.tick).pc = s.pc := rfl
@[simp] theorem tick_sp : (s.tick).sp = s.sp := rfl
@[simp] theorem tick_stack : (s.tick).stack = s.stack := rfl
@[simp] theorem tick_dt : (s.tick).dt = countDown s.dt := rfl
@[simp] theorem tick_st : (s.tick).st = countDown s.st := rfl
@[simp] theorem tick_mem : (s.tick).mem = s.mem := rfl
@[simp] theorem tick_fb : (s.tick).fb = s.fb := rfl
@[simp] theorem tick_key : (s.tick).key = s.key := rfl
@[simp] theorem tick_font : (s.tick).font = s.font := rfl
@[simp] theorem tick_pending : (s.tick).pending = s.pending := rfl
@[simp] theorem tick_rndIn : (s.tick).rndIn = s.rndIn := rfl
@[simp] theorem tick_rndDraws : (s.tick).rndDraws = s.rndDraws := rfl

@[simp] theorem keyWrite_v (k : Key) (b : Bool) : (s.keyWrite k b).v = s.v := rfl
@[simp] theorem keyWrite_i (k : Key) (b : Bool) : (s.keyWrite k b).i = s.i := rfl
@[simp] theorem keyWrite_pc (k : Key) (b : Bool) : (s.keyWrite k b).pc = s.pc := rfl
@[simp] theorem keyWrite_sp (k : Key) (b : Bool) : (s.keyWrite k b).sp = s.sp := rfl
@[simp] theorem keyWrite_stack (k : Key) (b : Bool) : (s.keyWrite k b).stack = s.stack := rfl
@[simp] theorem keyWrite_dt (k : Key) (b : Bool) : (s.keyWrite k b).dt = s.dt := rfl
@[simp] theorem keyWrite_st (k : Key) (b : Bool) : (s.keyWrite k b).st = s.st := rfl
@[simp] theorem keyWrite_mem (k : Key) (b : Bool) : (s.keyWrite k b).mem = s.mem := rfl
@[simp] theorem keyWrite_fb (k : Key) (b : Bool) : (s.keyWrite k b).fb = s.fb := rfl
@[simp] theorem keyWrite_key (k : Key) (b : Bool) : (s.keyWrite k b).key = s.key.set k.val b := rfl
@[simp] theorem keyWrite_font (k : Key) (b : Bool) : (s.keyWrite k b).font = s.font := rfl
@[simp] theorem keyWrite_pending (k : Key) (b : Bool) : (s.keyWrite k b).pending = s.pending := rfl
@[simp] theorem keyWrite_rndIn (k : Key) (b : Bool) : (s.keyWrite k b).rndIn = s.rndIn := rfl
@[simp] theorem keyWrite_rndDraws (k : Key) (b : Bool) : (s.keyWrite k b).rndDraws = s.rndDraws := rfl

@[simp] theorem afterDraw_v : s.afterDraw.v = s.v := by unfold afterDraw; split <;> rfl
@[simp] theorem afterDraw_i : s.afterDraw.i = s.i := by unfold afterDraw; split <;> rfl
@[simp] theorem afterDraw_pc : s.afterDraw.pc = s.pc := by unfold afterDraw; split <;> rfl
@[simp] theorem afterDraw_sp : s.afterDraw.sp = s.sp := by unfold afterDraw; split <;> rfl
@[simp] theorem afterDraw_stack : s.afterDraw.stack = s.stack := by unfold afterDraw; split <;> rfl
@[simp] theorem afterDraw_dt : s.afterDraw.dt = s.dt := by unfold afterDraw; split <;> rfl
@[simp] theorem afterDraw_st : s.afterDraw.st = s.st := by unfold afterDraw; split <;> rfl
@[simp] theorem afterDraw_mem : s.afterDraw.mem = s.mem := by unfold afterDraw; split <;> rfl
@[simp] theorem afterDraw_fb : s.afterDraw.fb = s.fb := by unfold afterDraw; split <;> rfl
@[simp] theorem afterDraw_key : s.afterDraw.key = s.key := by unfold afterDraw; split <;> rfl
@[simp] theorem afterDraw_font : s.afterDraw.font = s.font := by unfold afterDraw; split <;> rfl
@[simp] theorem afterDraw_pending : s.afterDraw.pending = s.pending := by unfold afterDraw; split <;> rfl

@[simp] theorem loadRegs_i (n : Nat) : (s.loadRegs n).i = s.i := by induction n <;> simp_all [loadRegs]
@[simp] theorem loadRegs_pc (n : Nat) : (s.loadRegs n).pc = s.pc := by induction n <;> simp_all [loadRegs]
@[simp] theorem loadRegs_sp (n : Nat) : (s.loadRegs n).sp = s.sp := by induction n <;> simp_all [loadRegs]
@[simp] theorem loadRegs_stack (n : Nat) : (s.loadRegs n).stack = s.stack := by induction n <;> simp_all [loadRegs]
@[simp] theorem loadRegs_dt (n : Nat) : (s.loadRegs n).dt = s.dt := by induction n <;> simp_all [loadRegs]
@[simp] theorem loadRegs_st (n : Nat) : (s.loadRegs n).st = s.st := by induction n <;> simp_all [loadRegs]
@[simp] theorem loadRegs_mem (n : Nat) : (s.loadRegs n).mem = s.mem := by induction n <;> simp_all [loadRegs]
@[simp] theorem loadRegs_fb (n : Nat) : (s.loadRegs n).fb = s.fb := by induction n <;> simp_all [loadRegs]
@[simp] theorem loadRegs_key (n : Nat) : (s.loadRegs n).key = s.key := by induction n <;> simp_all [loadRegs]
@[simp] theorem loadRegs_font (n : Nat) : (s.loadRegs n).font = s.font := by induction n <;> simp_all [loadRegs]
@[simp] theorem loadRegs_pending (n : Nat) : (s.loadRegs n).pending = s.pending := by induction n <;> simp_all [loadRegs]
@[simp] theorem loadRegs_rndIn (n : Nat) : (s.loadRegs n).rndIn = s.rndIn := by induction n <;> simp_all [loadRegs]
@[simp] theorem loadRegs_rndDraws (n : Nat) : (s.loadRegs n).rndDraws = s.rndDraws := by induction n <;> simp_all [loadRegs]

section
variable (capacity : Nat) (font : Vector Byte 80) (rom : List Byte)

@[simp] theorem booted_v : (booted capacity font rom).v = Vector.replicate 16 0 := rfl
@[simp] theorem booted_i : (booted capacity font rom).i = 0 := rfl
@[simp] theorem booted_pc : (booted capacity font rom).pc = 0x200 := rfl
@[simp] theorem booted_sp : (booted capacity font rom).sp = 0 := rfl
@[simp] theorem booted_stack : (booted capacity font rom).stack = List.replicate capacity 0 := rfl
@[simp] theorem booted_dt : (booted capacity font rom).dt = 0 := rfl
@[simp] theorem booted_st : (booted capacity font rom).st = 0 := rfl
@[simp] theorem booted_mem : (booted capacity font rom).mem = (Memory.writeBlock [] 0 font.toList).writeBlock Config.progBase rom := rfl
@[simp] theorem booted_fb : (booted capacity font rom).fb = blankFramebuffer := rfl
@[simp] theorem booted_key : (booted capacity font rom).key = Vector.replicate 16 false := rfl
@[simp] theorem booted_font : (booted capacity font rom).font = font := rfl
@[simp] theorem booted_pending : (booted capacity font rom).pending = [] := rfl
@[simp] theorem booted_rndIn : (booted capacity font rom).rndIn = [] := rfl
@[simp] theorem booted_rndDraws : (booted capacity font rom).rndDraws = 0 := rfl

end

end Sys2Proof.Machine.State
end

