-- ==== Sys2Proof/Laws/Ops.lean ====
section
/-! SUPPORT. The shared operations: what each can do, once. -/

namespace Sys2Proof.Machine

theorem State.ext_reg {s t : State} (h : ∀ k, s.reg k = t.reg k) : s.v = t.v :=
  Vector.ext fun k hk => h ⟨k, hk⟩

@[simp] theorem State.reg_setReg (s : State) (k j : Reg) (b : Byte) :
    (s.setReg k b).reg j = if j = k then b else s.reg j := by
  simp only [State.reg, State.setReg, Vector.getElem_set, Fin.ext_iff, eq_comm]

@[simp] theorem State.reg_setFlag (s : State) (j : Reg) (f : Byte) :
    (s.setFlag f).reg j = if j = vf then f else s.reg j := State.reg_setReg s vf j f

/-- An update that leaves the register file alone leaves every register alone. -/
theorem State.reg_congr {s t : State} (h : t.v = s.v) (k : Reg) : t.reg k = s.reg k := by
  simp only [State.reg, h]

@[simp] theorem State.reg_setPc (s : State) (a : Word) (k : Reg) : (s.setPc a).reg k = s.reg k := rfl
@[simp] theorem State.reg_setI (s : State) (a : Word) (k : Reg) : (s.setI a).reg k = s.reg k := rfl
@[simp] theorem State.reg_setDt (s : State) (b : Byte) (k : Reg) : (s.setDt b).reg k = s.reg k := rfl
@[simp] theorem State.reg_setSt (s : State) (b : Byte) (k : Reg) : (s.setSt b).reg k = s.reg k := rfl
@[simp] theorem State.reg_setMem (s : State) (m : Memory) (k : Reg) : (s.setMem m).reg k = s.reg k := rfl
@[simp] theorem State.reg_setFb (s : State) (f : Framebuffer) (k : Reg) : (s.setFb f).reg k = s.reg k := rfl
@[simp] theorem State.reg_advance (s : State) (k : Reg) : s.advance.reg k = s.reg k := rfl
@[simp] theorem State.reg_skip (s : State) (k : Reg) : s.skip.reg k = s.reg k := rfl
@[simp] theorem State.reg_pushReturn (s : State) (a : Word) (k : Reg) : (s.pushReturn a).reg k = s.reg k := rfl
@[simp] theorem State.reg_popReturn (s : State) (a : Word) (k : Reg) : (s.popReturn a).reg k = s.reg k := rfl
@[simp] theorem State.reg_storeBlock (s : State) (bs : List Byte) (k : Reg) : (s.storeBlock bs).reg k = s.reg k := rfl
@[simp] theorem State.reg_afterDraw (s : State) (k : Reg) : s.afterDraw.reg k = s.reg k :=
  State.reg_congr (State.afterDraw_v s) k

@[simp] theorem State.reg_commitDrawing (s : State) (d : Drawing) (k : Reg) :
    (s.commitDrawing d).reg k = if k = vf then flagByte d.hit else s.reg k := State.reg_setFlag s k _

/-- A block load gives the registers below `n` their bytes and keeps the others. -/
@[simp] theorem State.reg_loadRegs (s : State) (n : Nat) (hn : n ≤ 16) (k : Reg) :
    (s.loadRegs n).reg k = if k.val < n then s.mem.read (s.effectiveAddress k.val) else s.reg k := by
  induction n with
  | zero => simp [State.loadRegs]
  | succ n ih =>
    have hk : (k = Fin.ofNat 16 n) ↔ k.val = n := by
      rw [Fin.ext_iff, Fin.val_ofNat, Nat.mod_eq_of_lt (by omega)]
    rw [State.loadRegs, State.reg_setReg, ih (by omega)]
    simp only [hk]
    split_ifs with h1 h2 h3 <;> first | (subst h1; rfl) | omega | rfl

/-- The stored block holds `v[k]` at offset `k`, up to `v[x]`. -/
theorem State.getElem?_regBlock (s : State) (x k : Reg) :
    (s.regBlock x)[k.val]? = if k ≤ x then some (s.reg k) else none := by
  simp only [State.regBlock, List.getElem?_take, State.reg, Fin.le_def, Nat.lt_succ_iff]
  split_ifs with h
  · have hk : k.val < s.v.toList.length := by simp
    rw [List.getElem?_eq_getElem hk]; simp
  · rfl

@[simp] theorem State.length_regBlock (s : State) (x : Reg) : (s.regBlock x).length = x.val + 1 := by
  simp [State.regBlock]

/-- The range check lets the instruction through exactly when all its bytes lie in memory. -/
theorem checkRange_eq (s : State) (m : Nat) (w : Word) (go : Outcome) :
    checkRange s m w go =
      if m = 0 ∨ s.i.toNat + m ≤ 0x1000 then go
      else .fault (.memoryOutOfRange (s.i.toNat + m - 1) s.pc w) := by
  unfold checkRange
  have e : Config.lastAddress = 0xFFF := rfl
  by_cases h : m = 0 ∨ s.i.toNat + m ≤ 0x1000
  · rw [if_pos h, if_neg (by rw [e]; unfold State.effectiveAddress; omega)]
  · rw [if_neg h, if_pos (by rw [e]; unfold State.effectiveAddress; omega)]
    rfl

/-- What passes the range check stays below the end of memory. -/
theorem checkRange_next {s : State} {m : Nat} {w : Word} {go : Outcome} {t : State}
    (h : checkRange s m w go = .next t) : go = .next t ∧ (m = 0 ∨ s.i.toNat + m ≤ 0x1000) := by
  rw [checkRange_eq] at h
  split_ifs at h with hm
  exact ⟨h, hm⟩

theorem checkRange_refused {s : State} {m : Nat} {w : Word} {go : Outcome} {r : Refusal}
    (h : checkRange s m w go = .refused r) : go = .refused r := by
  rw [checkRange_eq] at h
  split_ifs at h
  exact h

theorem retire_next {s t : State} (h : retire s = .next t) : t = s.advance := by
  simpa [retire, eq_comm] using h

theorem retireSkipping_next {c : Bool} {s t : State} (h : retireSkipping c s = .next t) :
    t = if c then s.skip else s.advance := by
  simpa [retireSkipping, eq_comm] using h

/-- CALL goes on exactly when the push stays inside the stack. -/
theorem execCall_next {nnn : Addr} {s t : State} (h : execCall nnn s = .next t) :
    s.sp + 1 < s.stack.length ∧ t = (s.pushReturn (s.pc + 2)).setPc (addressOperand nnn) := by
  simp only [execCall, raise] at h
  split_ifs at h with hs
  exact ⟨hs, by simpa [eq_comm] using h⟩

/-- RET goes on exactly when the stack is not empty, with the entry at `sp`. -/
theorem execRet_next {s t : State} (h : execRet s = .next t) :
    ∃ a, s.sp ≠ 0 ∧ s.stack[s.sp]? = some a ∧ t = s.popReturn a := by
  simp only [execRet, raise] at h
  split_ifs at h with h0
  split at h
  · rename_i a ha
    exact ⟨a, h0, ha, by simpa [eq_comm] using h⟩
  · cases h

/-- `Fx1E` goes on exactly when the sum stays inside the range of `I`. -/
theorem execAddI_next {x : Reg} {s t : State} (h : execAddI x s = .next t) :
    s.i.toNat + (s.reg x).toNat ≤ 0xFFF ∧ t = (s.setI (s.i + (s.reg x).setWidth 16)).advance := by
  have e : Config.lastAddress = 0xFFF := rfl
  simp only [execAddI, raise] at h
  split_ifs at h with hs
  exact ⟨by omega, retire_next h⟩

@[simp] theorem toNat_addressOperand (nnn : Addr) : (addressOperand nnn).toNat = nnn.toNat := by
  simp only [addressOperand, BitVec.toNat_setWidth]
  exact Nat.mod_eq_of_lt (by have := nnn.isLt; omega)

@[simp] theorem State.effectiveAddress_eq (s : State) (k : Nat) : s.effectiveAddress k = s.i.toNat + k := rfl

/-- The range check faults exactly when the last byte lies past memory, and then with its address. -/
theorem checkRange_fault {s : State} {m : Nat} {w : Word} {u : State} {f : Fault} :
    checkRange s m w (retire u) = .fault f ↔
      1 ≤ m ∧ 0xFFF < s.i.toNat + m - 1 ∧ f = .memoryOutOfRange (s.i.toNat + m - 1) s.pc w := by
  rw [checkRange_eq]
  split_ifs with h
  · simp only [retire, reduceCtorEq, false_iff, not_and]
    omega
  · have h1 : 1 ≤ m := by omega
    have h2 : 0xFFF < s.i.toNat + m - 1 := by omega
    simp [h1, h2, eq_comm]

/-- A block store leaves every byte outside the block alone. -/
theorem State.read_storeBlock_outside (s : State) (bs : List Byte) (a : Nat)
    (h : ∀ k, k < bs.length → a ≠ s.effectiveAddress k) : (s.storeBlock bs).mem.read a = s.mem.read a :=
  Memory.read_writeBlock_outside s.mem _ bs a h

/-- A block store puts byte `k` of the block at `I + k`. -/
theorem State.read_storeBlock_at (s : State) (hm : s.mem.wf) (bs : List Byte) (k : Nat) :
    (s.storeBlock bs).mem.read (s.i.toNat + k) = bs.getD k (s.mem.read (s.i.toNat + k)) := by
  rw [State.storeBlock_mem, Memory.read_writeBlock _ _ _ _ hm.1]
  simp

theorem State.getD_regBlock (s : State) (x k : Reg) (hk : k ≤ x) (d : Byte) : (s.regBlock x).getD k.val d = s.reg k := by
  rw [List.getD_eq_getElem?_getD, State.getElem?_regBlock, if_pos hk]
  rfl

/-- A register value names a key exactly when it is at most 15. -/
theorem State.keyNamed_eq_none (s : State) (b : Byte) : s.keyNamed b = none ↔ 15 < b.toNat := by
  simp only [State.keyNamed, Vector.getElem?_eq_none_iff]
  omega

theorem State.keyNamed_eq_some (s : State) (b : Byte) (k : Key) (h : b.toNat = k.val) :
    s.keyNamed b = some s.key[k.val] := by
  simp [State.keyNamed, h]

/-- No key is the first one down exactly when none is down. -/
theorem State.firstKeyDown_eq_none (s : State) : s.firstKeyDown = none ↔ ∀ k : Key, s.key[k.val] = false := by
  simp [State.firstKeyDown, List.find?_eq_none]

/-- The smallest key that is down is the one found. -/
theorem State.firstKeyDown_eq_some (s : State) (k : Key) (hk : s.key[k.val] = true)
    (hj : ∀ j : Key, j < k → s.key[j.val] = false) : s.firstKeyDown = some k := by
  unfold State.firstKeyDown
  rw [List.find?_eq_some_iff_getElem]
  refine ⟨hk, k.val, by simp, by simp, fun j hjk => ?_⟩
  simpa using hj ⟨j, by omega⟩ hjk

@[simp] theorem toNat_shiftRightFlag (b : Byte) : (shiftRightFlag b).toNat = b.toNat % 2 := by
  simp [shiftRightFlag, Nat.and_one_is_mod]

@[simp] theorem toNat_shiftLeftFlag (b : Byte) : (shiftLeftFlag b).toNat = b.toNat / 128 := by
  revert b
  decide

/-- A timer counts down by one and stays at 0. -/
@[simp] theorem toNat_countDown (b : Byte) : (countDown b).toNat = b.toNat - 1 := by
  unfold countDown
  split_ifs with h
  · subst h
    rfl
  · have h' : b.toNat ≠ 0 := fun hh => h (BitVec.eq_of_toNat_eq hh)
    have := b.isLt
    rw [BitVec.toNat_sub]
    rw [show (1 : Byte).toNat = 1 from rfl]
    omega

end Sys2Proof.Machine
end

