-- ==== Sys2Proof/Laws/Display.lean ====
section
/-! SUPPORT. The sprite draw pixel by pixel: what one plot, one row and the whole draw do to a pixel and to the collision. -/

namespace Sys2Proof.Machine

@[simp] theorem Framebuffer.pixel_xorPixel (f : Framebuffer) (r r' : Fin 32) (c c' : Fin 64) (bit : Bool) :
    Framebuffer.pixel (Framebuffer.xorPixel f r c bit) r' c' =
      (Framebuffer.pixel f r' c' ^^ (decide (r' = r) && decide (c' = c) && bit)) := by
  simp only [Framebuffer.pixel, Framebuffer.xorPixel, Vector.getElem_set, Fin.ext_iff]
  by_cases hr : r.val = r'.val <;> by_cases hc : c.val = c'.val <;>
    simp [hr, hc, eq_comm]

/-- The pixels of column loop `k`: the columns from `8 - k` on, inside the grid. -/
def columnBit (b : Byte) (x0 k : Nat) (c : Nat) : Bool :=
  decide (x0 + (8 - k) ≤ c) && decide (c < x0 + 8) && b.getLsbD (7 - (c - x0))

theorem columnBit_succ (b : Byte) (x0 k c : Nat) (hk : k + 1 ≤ 8) :
    columnBit b x0 (k + 1) c = ((decide (c = x0 + (7 - k)) && b.getLsbD k) || columnBit b x0 k c) := by
  unfold columnBit
  by_cases h : c = x0 + (7 - k)
  · have e : 7 - (c - x0) = k := by omega
    have h1 : x0 + (8 - (k + 1)) ≤ c := by omega
    have h2 : c < x0 + 8 := by omega
    have h3 : ¬ x0 + (8 - k) ≤ c := by omega
    rw [e]
    simp only [decide_eq_true h1, decide_eq_true h2, decide_eq_false h3, decide_eq_true h, Bool.true_and,
      Bool.false_and, Bool.or_false]
  · have : (x0 + (8 - (k + 1)) ≤ c) ↔ (x0 + (8 - k) ≤ c) := by omega
    simp only [this, decide_eq_false h, Bool.false_and, Bool.false_or]

/-- The column loop XORs the row's sprite bits into its row and touches no other. -/
theorem pixel_drawColumns (b : Byte) (r : Fin 32) (x0 k : Nat) (hk : k ≤ 8) (d : Drawing) (r' : Fin 32) (c : Fin 64) :
    Framebuffer.pixel (drawColumns b r x0 k d).fb r' c =
      (Framebuffer.pixel d.fb r' c ^^ (decide (r' = r) && columnBit b x0 k c.val)) := by
  induction k generalizing d with
  | zero =>
    have : columnBit b x0 0 c.val = false := by
      simp only [columnBit, Bool.and_eq_false_iff, decide_eq_false_iff_not]; omega
    simp [drawColumns, this]
  | succ k ih =>
    rw [drawColumns, columnBit_succ b x0 k c.val hk]
    split_ifs with h
    · rw [ih (by omega)]
      simp only [Drawing.plot, Framebuffer.pixel_xorPixel, Fin.ext_iff]
      by_cases hc : c.val = x0 + (7 - k)
      · have : columnBit b x0 k c.val = false := by
          simp only [columnBit, Bool.and_eq_false_iff, decide_eq_false_iff_not]; omega
        rw [this]; simp [hc]
      · simp [hc]
    · have h1 : ¬ c.val = x0 + (7 - k) := by have := c.isLt; omega
      have h2 : columnBit b x0 k c.val = false := by
        have := c.isLt
        simp only [columnBit, Bool.and_eq_false_iff, decide_eq_false_iff_not]; omega
      simp [h1, h2]

/-- The column loop records a collision exactly when a sprite bit 1 met a lit pixel. -/
theorem hit_drawColumns (b : Byte) (r : Fin 32) (x0 k : Nat) (hk : k ≤ 8) (d : Drawing) :
    (drawColumns b r x0 k d).hit = true ↔
      d.hit = true ∨ ∃ c : Fin 64, columnBit b x0 k c.val = true ∧ Framebuffer.pixel d.fb r c = true := by
  induction k generalizing d with
  | zero =>
    have : ∀ c : Nat, columnBit b x0 0 c = false := fun c => by
      simp only [columnBit, Bool.and_eq_false_iff, decide_eq_false_iff_not]; omega
    simp [drawColumns, this]
  | succ k ih =>
    rw [drawColumns]
    split_ifs with h
    · rw [ih (by omega)]
      simp only [Drawing.plot, Bool.or_eq_true, Bool.and_eq_true, Framebuffer.pixel_xorPixel,
        columnBit_succ b x0 k _ hk]
      have key : ∀ c : Fin 64, columnBit b x0 k c.val = true → c.val ≠ x0 + (7 - k) := fun c hc => by
        simp only [columnBit, Bool.and_eq_true, decide_eq_true_eq] at hc; omega
      constructor
      · rintro ((h1 | ⟨h1, h2⟩) | ⟨c, h1, h2⟩)
        · exact .inl h1
        · exact .inr ⟨⟨_, h⟩, by simp [h1], h2⟩
        · have := key c h1
          refine .inr ⟨c, by simp [h1], ?_⟩
          simpa [Fin.ext_iff, this] using h2
      · rintro (h1 | ⟨c, h1, h2⟩)
        · exact .inl (.inl h1)
        · rcases h1 with h1 | h1
          · simp only [decide_eq_true_eq] at h1
            have : c = ⟨_, h⟩ := Fin.ext h1.1
            exact .inl (.inr ⟨h1.2, this ▸ h2⟩)
          · have := key c h1
            exact .inr ⟨c, h1, by simpa [Fin.ext_iff, this] using h2⟩
    · have : ∀ c : Fin 64, columnBit b x0 (k + 1) c.val = false := fun c => by
        have := c.isLt
        simp only [columnBit, Bool.and_eq_false_iff, decide_eq_false_iff_not]; omega
      simp [this]

/-- The sprite's bit at a pixel, for rows `bs` drawn from row `y` down: 0 outside the sprite's rectangle. -/
def spriteBit (x0 : Nat) (bs : List Byte) (y r c : Nat) : Bool :=
  decide (y ≤ r) && columnBit (bs.getD (r - y) 0) x0 8 c

theorem columnBit_zero (x0 k c : Nat) : columnBit 0 x0 k c = false := by simp [columnBit]

theorem spriteBit_nil (x0 y r c : Nat) : spriteBit x0 [] y r c = false := by
  unfold spriteBit
  rw [List.getD_nil, columnBit_zero, Bool.and_false]

theorem spriteBit_cons (x0 : Nat) (b : Byte) (bs : List Byte) (y r c : Nat) :
    spriteBit x0 (b :: bs) y r c = ((decide (r = y) && columnBit b x0 8 c) || spriteBit x0 bs (y + 1) r c) := by
  unfold spriteBit
  by_cases h : r = y
  · subst h; simp
  · by_cases h2 : y ≤ r
    · obtain ⟨d, rfl⟩ := Nat.exists_eq_add_of_lt (Nat.lt_of_le_of_ne h2 (Ne.symm h))
      have e1 : y + d + 1 - y = d + 1 := by omega
      have e2 : y + d + 1 - (y + 1) = d := by omega
      have e3 : y + 1 ≤ y + d + 1 := by omega
      rw [e1, e2, List.getD_cons_succ]
      simp [e3, show y ≤ y + d + 1 by omega, show ¬ y + d + 1 = y by omega]
    · have h3 : ¬ y + 1 ≤ r := by omega
      simp [h, h2, h3]

/-- The whole draw XORs the sprite into the framebuffer. -/
theorem pixel_drawRows (x0 : Nat) (bs : List Byte) (y : Nat) (d : Drawing) (r : Fin 32) (c : Fin 64) :
    Framebuffer.pixel (drawRows x0 bs y d).fb r c =
      (Framebuffer.pixel d.fb r c ^^ spriteBit x0 bs y r.val c.val) := by
  induction bs generalizing y d with
  | nil => simp [drawRows, spriteBit_nil]
  | cons b bs ih =>
    rw [drawRows, spriteBit_cons]
    split_ifs with h
    · rw [ih, pixel_drawColumns b _ x0 8 (le_refl 8)]
      simp only [Fin.ext_iff]
      by_cases hr : r.val = y
      · have : spriteBit x0 bs (y + 1) r.val c.val = false := by simp [spriteBit, hr]
        rw [this]; simp [hr]
      · simp [hr]
    · have h1 : ¬ r.val = y := by have := r.isLt; omega
      have h2 : spriteBit x0 bs (y + 1) r.val c.val = false := by
        have : ¬ y + 1 ≤ r.val := by have := r.isLt; omega
        simp [spriteBit, this]
      simp [h1, h2]

/-- The whole draw records a collision exactly when a sprite bit 1 met a lit pixel inside the grid. -/
theorem hit_drawRows (x0 : Nat) (bs : List Byte) (y : Nat) (d : Drawing) :
    (drawRows x0 bs y d).hit = true ↔
      d.hit = true ∨ ∃ (r : Fin 32) (c : Fin 64), spriteBit x0 bs y r.val c.val = true ∧
        Framebuffer.pixel d.fb r c = true := by
  induction bs generalizing y d with
  | nil => simp [drawRows, spriteBit_nil]
  | cons b bs ih =>
    rw [drawRows]
    split_ifs with h
    · rw [ih, hit_drawColumns b _ x0 8 (le_refl 8)]
      have key : ∀ (r : Fin 32) (c : Nat), spriteBit x0 bs (y + 1) r.val c = true → r.val ≠ y := fun r c hc => by
        simp only [spriteBit, Bool.and_eq_true, decide_eq_true_eq] at hc; omega
      simp only [pixel_drawColumns b _ x0 8 (le_refl 8), spriteBit_cons, Bool.or_eq_true, Bool.and_eq_true,
        decide_eq_true_eq]
      constructor
      · rintro ((h1 | ⟨c, h1, h2⟩) | ⟨r, c, h1, h2⟩)
        · exact .inl h1
        · exact .inr ⟨⟨y, h⟩, c, .inl ⟨rfl, h1⟩, h2⟩
        · refine .inr ⟨r, c, .inr h1, ?_⟩
          simpa [Fin.ext_iff, key r _ h1] using h2
      · rintro (h1 | ⟨r, c, h1 | h1, h2⟩)
        · exact .inl (.inl h1)
        · have : r = ⟨y, h⟩ := Fin.ext h1.1
          exact .inl (.inr ⟨c, h1.2, this ▸ h2⟩)
        · exact .inr ⟨r, c, h1, by simpa [Fin.ext_iff, key r _ h1] using h2⟩
    · have : ∀ (r : Fin 32) (c : Nat), spriteBit x0 (b :: bs) y r.val c = false := fun r c => by
        have : ¬ y ≤ r.val := by have := r.isLt; omega
        simp [spriteBit, this]
      simp [this]

theorem State.getD_sprite (s : State) (n : Nibble) (k : Nat) :
    (s.sprite n).getD k 0 = if k < n.toNat then s.mem.read (s.i.toNat + k) else 0 := by
  rw [State.sprite, List.getD_eq_getElem?_getD, Memory.getElem?_readBlock]
  split_ifs <;> simp

/-- The bit that the loops draw at a pixel is the sprite's bit at that pixel as claims state it. -/
theorem State.spritePixel_eq (s : State) (x y : Reg) (n : Nibble) (r : Fin 32) (c : Fin 64) :
    spriteBit ((s.reg x).toNat % 64) (s.sprite n) ((s.reg y).toNat % 32) r.val c.val = s.spritePixel x y n r c := by
  unfold spriteBit State.spritePixel columnBit
  rw [State.getD_sprite, State.effectiveAddress_eq]
  by_cases h1 : (s.reg y).toNat % 32 ≤ r.val
  · by_cases h2 : r.val < (s.reg y).toNat % 32 + n.toNat
    · rw [if_pos (by omega)]
      simp [h1, h2, Bool.and_assoc]
    · rw [if_neg (by omega)]
      simp [h2]
  · simp [h1]

end Sys2Proof.Machine
end

