-- ==== Sys2Proof/Laws/PerInstr.lean ====
section
/-! SUPPORT. Statements for all instructions, one lemma per constructor. EncodedRow: the word of every instruction matches
a row of the opcode map (30_encoding.md R76), and that row builds the instruction again from the word, so that no operand
bit is lost. It says nothing about the order in which the rows are tried. -/

namespace Sys2Proof.Laws.EncodedRow

def Statement (i : Instr) : Prop :=
  ∃ r ∈ opcodeMap, encodeWord i &&& r.mask = r.pattern ∧ r.build (encodeWord i) = i

theorem of_row (i : Instr) (k : Nat) (hk : k < opcodeMap.length)
    (h : encodeWord i &&& opcodeMap[k].mask = opcodeMap[k].pattern) (hb : opcodeMap[k].build (encodeWord i) = i) :
    Statement i := ⟨opcodeMap[k], List.getElem_mem hk, h, hb⟩

theorem cls : Statement .cls := of_row _ 0 (by decide) rfl rfl

theorem ret : Statement .ret := of_row _ 1 (by decide) rfl rfl

theorem sys (nnn : Addr) : Statement (.sys nnn) :=
  of_row _ 2 (by decide) (formatNNN_and_class _ _) (by simp [opcodeMap, opcodeRowsA, opcodeRowsB, opcodeRowsC, opcodeRowsD, encodeWord])

theorem jp (nnn : Addr) : Statement (.jp nnn) :=
  of_row _ 3 (by decide) (formatNNN_and_class _ _) (by simp [opcodeMap, opcodeRowsA, opcodeRowsB, opcodeRowsC, opcodeRowsD, encodeWord])

theorem call (nnn : Addr) : Statement (.call nnn) :=
  of_row _ 4 (by decide) (formatNNN_and_class _ _) (by simp [opcodeMap, opcodeRowsA, opcodeRowsB, opcodeRowsC, opcodeRowsD, encodeWord])

theorem seImm (x : Reg) (nn : Byte) : Statement (.seImm x nn) :=
  of_row _ 5 (by decide) (formatXNN_and_class _ _ _) (by simp [opcodeMap, opcodeRowsA, opcodeRowsB, opcodeRowsC, opcodeRowsD, encodeWord])

theorem sneImm (x : Reg) (nn : Byte) : Statement (.sneImm x nn) :=
  of_row _ 6 (by decide) (formatXNN_and_class _ _ _) (by simp [opcodeMap, opcodeRowsA, opcodeRowsB, opcodeRowsC, opcodeRowsD, encodeWord])

theorem seReg (x : Reg) (y : Reg) : Statement (.seReg x y) :=
  of_row _ 7 (by decide) (formatXYN_and_class _ _ _ _) (by simp [opcodeMap, opcodeRowsA, opcodeRowsB, opcodeRowsC, opcodeRowsD, encodeWord])

theorem ldImm (x : Reg) (nn : Byte) : Statement (.ldImm x nn) :=
  of_row _ 8 (by decide) (formatXNN_and_class _ _ _) (by simp [opcodeMap, opcodeRowsA, opcodeRowsB, opcodeRowsC, opcodeRowsD, encodeWord])

theorem addImm (x : Reg) (nn : Byte) : Statement (.addImm x nn) :=
  of_row _ 9 (by decide) (formatXNN_and_class _ _ _) (by simp [opcodeMap, opcodeRowsA, opcodeRowsB, opcodeRowsC, opcodeRowsD, encodeWord])

theorem ldReg (x : Reg) (y : Reg) : Statement (.ldReg x y) :=
  of_row _ 10 (by decide) (formatXYN_and_nibble _ _ _ _) (by simp [opcodeMap, opcodeRowsA, opcodeRowsB, opcodeRowsC, opcodeRowsD, encodeWord])

theorem orReg (x : Reg) (y : Reg) : Statement (.orReg x y) :=
  of_row _ 11 (by decide) (formatXYN_and_nibble _ _ _ _) (by simp [opcodeMap, opcodeRowsA, opcodeRowsB, opcodeRowsC, opcodeRowsD, encodeWord])

theorem andReg (x : Reg) (y : Reg) : Statement (.andReg x y) :=
  of_row _ 12 (by decide) (formatXYN_and_nibble _ _ _ _) (by simp [opcodeMap, opcodeRowsA, opcodeRowsB, opcodeRowsC, opcodeRowsD, encodeWord])

theorem xorReg (x : Reg) (y : Reg) : Statement (.xorReg x y) :=
  of_row _ 13 (by decide) (formatXYN_and_nibble _ _ _ _) (by simp [opcodeMap, opcodeRowsA, opcodeRowsB, opcodeRowsC, opcodeRowsD, encodeWord])

theorem addReg (x : Reg) (y : Reg) : Statement (.addReg x y) :=
  of_row _ 14 (by decide) (formatXYN_and_nibble _ _ _ _) (by simp [opcodeMap, opcodeRowsA, opcodeRowsB, opcodeRowsC, opcodeRowsD, encodeWord])

theorem subReg (x : Reg) (y : Reg) : Statement (.subReg x y) :=
  of_row _ 15 (by decide) (formatXYN_and_nibble _ _ _ _) (by simp [opcodeMap, opcodeRowsA, opcodeRowsB, opcodeRowsC, opcodeRowsD, encodeWord])

theorem shr (x : Reg) : Statement (.shr x) :=
  of_row _ 16 (by decide) (formatXYN_and_nibble _ _ _ _) (by simp [opcodeMap, opcodeRowsA, opcodeRowsB, opcodeRowsC, opcodeRowsD, encodeWord])

theorem subn (x : Reg) (y : Reg) : Statement (.subn x y) :=
  of_row _ 17 (by decide) (formatXYN_and_nibble _ _ _ _) (by simp [opcodeMap, opcodeRowsA, opcodeRowsB, opcodeRowsC, opcodeRowsD, encodeWord])

theorem shl (x : Reg) : Statement (.shl x) :=
  of_row _ 18 (by decide) (formatXYN_and_nibble _ _ _ _) (by simp [opcodeMap, opcodeRowsA, opcodeRowsB, opcodeRowsC, opcodeRowsD, encodeWord])

theorem sneReg (x : Reg) (y : Reg) : Statement (.sneReg x y) :=
  of_row _ 19 (by decide) (formatXYN_and_class _ _ _ _) (by simp [opcodeMap, opcodeRowsA, opcodeRowsB, opcodeRowsC, opcodeRowsD, encodeWord])

theorem ldI (nnn : Addr) : Statement (.ldI nnn) :=
  of_row _ 20 (by decide) (formatNNN_and_class _ _) (by simp [opcodeMap, opcodeRowsA, opcodeRowsB, opcodeRowsC, opcodeRowsD, encodeWord])

theorem jpV0 (nnn : Addr) : Statement (.jpV0 nnn) :=
  of_row _ 21 (by decide) (formatNNN_and_class _ _) (by simp [opcodeMap, opcodeRowsA, opcodeRowsB, opcodeRowsC, opcodeRowsD, encodeWord])

theorem rnd (x : Reg) (nn : Byte) : Statement (.rnd x nn) :=
  of_row _ 22 (by decide) (formatXNN_and_class _ _ _) (by simp [opcodeMap, opcodeRowsA, opcodeRowsB, opcodeRowsC, opcodeRowsD, encodeWord])

theorem drw (x : Reg) (y : Reg) (n : Nibble) : Statement (.drw x y n) :=
  of_row _ 23 (by decide) (formatXYN_and_class _ _ _ _) (by simp [opcodeMap, opcodeRowsA, opcodeRowsB, opcodeRowsC, opcodeRowsD, encodeWord])

theorem skp (x : Reg) : Statement (.skp x) :=
  of_row _ 24 (by decide) (formatXNN_and_byte _ _ _) (by simp [opcodeMap, opcodeRowsA, opcodeRowsB, opcodeRowsC, opcodeRowsD, encodeWord])

theorem sknp (x : Reg) : Statement (.sknp x) :=
  of_row _ 25 (by decide) (formatXNN_and_byte _ _ _) (by simp [opcodeMap, opcodeRowsA, opcodeRowsB, opcodeRowsC, opcodeRowsD, encodeWord])

theorem ldFromDt (x : Reg) : Statement (.ldFromDt x) :=
  of_row _ 26 (by decide) (formatXNN_and_byte _ _ _) (by simp [opcodeMap, opcodeRowsA, opcodeRowsB, opcodeRowsC, opcodeRowsD, encodeWord])

theorem ldKey (x : Reg) : Statement (.ldKey x) :=
  of_row _ 27 (by decide) (formatXNN_and_byte _ _ _) (by simp [opcodeMap, opcodeRowsA, opcodeRowsB, opcodeRowsC, opcodeRowsD, encodeWord])

theorem ldToDt (x : Reg) : Statement (.ldToDt x) :=
  of_row _ 28 (by decide) (formatXNN_and_byte _ _ _) (by simp [opcodeMap, opcodeRowsA, opcodeRowsB, opcodeRowsC, opcodeRowsD, encodeWord])

theorem ldToSt (x : Reg) : Statement (.ldToSt x) :=
  of_row _ 29 (by decide) (formatXNN_and_byte _ _ _) (by simp [opcodeMap, opcodeRowsA, opcodeRowsB, opcodeRowsC, opcodeRowsD, encodeWord])

theorem addI (x : Reg) : Statement (.addI x) :=
  of_row _ 30 (by decide) (formatXNN_and_byte _ _ _) (by simp [opcodeMap, opcodeRowsA, opcodeRowsB, opcodeRowsC, opcodeRowsD, encodeWord])

theorem ldFont (x : Reg) : Statement (.ldFont x) :=
  of_row _ 31 (by decide) (formatXNN_and_byte _ _ _) (by simp [opcodeMap, opcodeRowsA, opcodeRowsB, opcodeRowsC, opcodeRowsD, encodeWord])

theorem ldBcd (x : Reg) : Statement (.ldBcd x) :=
  of_row _ 32 (by decide) (formatXNN_and_byte _ _ _) (by simp [opcodeMap, opcodeRowsA, opcodeRowsB, opcodeRowsC, opcodeRowsD, encodeWord])

theorem store (x : Reg) : Statement (.store x) :=
  of_row _ 33 (by decide) (formatXNN_and_byte _ _ _) (by simp [opcodeMap, opcodeRowsA, opcodeRowsB, opcodeRowsC, opcodeRowsD, encodeWord])

theorem load (x : Reg) : Statement (.load x) :=
  of_row _ 34 (by decide) (formatXNN_and_byte _ _ _) (by simp [opcodeMap, opcodeRowsA, opcodeRowsB, opcodeRowsC, opcodeRowsD, encodeWord])

theorem alunop8 : Statement .alunop8 := of_row _ 35 (by decide) rfl rfl

theorem alunop9 : Statement .alunop9 := of_row _ 36 (by decide) rfl rfl

theorem alunopA : Statement .alunopA := of_row _ 37 (by decide) rfl rfl

theorem alunopB : Statement .alunopB := of_row _ 38 (by decide) rfl rfl

theorem alunopC : Statement .alunopC := of_row _ 39 (by decide) rfl rfl

theorem alunopD : Statement .alunopD := of_row _ 40 (by decide) rfl rfl

theorem alunopF : Statement .alunopF := of_row _ 41 (by decide) rfl rfl

end Sys2Proof.Laws.EncodedRow
end

