-- ==== Sys2Proof/Laws/Step.lean ====
section
/-! SUPPORT. What fetch, the Cycle Driver and a step can do, once. -/

namespace Sys2Proof.Machine

/-- The bytes that the fetch reads are those of the fetched word. -/
theorem State.decode_fetchBytes (s : State) :
    decode s.fetchBytes = (decodeWord s.fetchWord).map fun i => (i, []) := by
  simp only [State.fetchBytes, Memory.readBlock, decode_cons_cons, State.fetchWord]

/-- The fetch in one line: range check, then the decoder on the big-endian word at `pc`. -/
theorem State.fetch_eq (s : State) :
    s.fetch = if 0xFFE < s.pc.toNat then .error (.pcOutOfRange s.pc)
      else match decodeWord s.fetchWord with
        | .ok i => .ok i
        | .error _ => .error (.illegalInstruction s.fetchWord s.pc) := by
  simp only [State.fetch, State.decode_fetchBytes, Config.lastFetch]
  split_ifs
  · rfl
  · cases decodeWord s.fetchWord <;> rfl

theorem State.fetch_ok {s : State} {i : Instr} (h : s.fetch = .ok i) :
    s.pc.toNat ≤ 0xFFE ∧ decodeWord s.fetchWord = .ok i := by
  rw [State.fetch_eq] at h
  split_ifs at h with hp
  split at h
  · rename_i j hj
    cases h
    exact ⟨by omega, hj⟩
  · cases h

theorem State.fetch_of_decodes {s : State} {i : Instr} (hp : s.pc.toNat ≤ 0xFFE) (h : decodeWord s.fetchWord = .ok i) :
    s.fetch = .ok i := by
  rw [State.fetch_eq, if_neg (by omega), h]

/-- A Step that goes on executed the instruction at `pc`. -/
theorem cycle_next {s t : State} (h : cycle s = .next t) : ∃ i, s.fetch = .ok i ∧ exec i s = .next t := by
  unfold cycle raise at h
  split at h
  · cases h
  · rename_i i hi
    exact ⟨i, hi, h⟩

/-- A Step that faults did so at fetch or decode, or in the instruction at `pc`. -/
theorem cycle_fault {s : State} {f : Fault} (h : cycle s = .fault f) :
    s.fetch = .error f ∨ ∃ i, s.fetch = .ok i ∧ exec i s = .fault f := by
  unfold cycle raise at h
  split at h
  · rename_i g hg
    simp only [Host.Outcome.fault.injEq] at h
    exact .inl (h ▸ hg)
  · rename_i i hi
    exact .inr ⟨i, hi, h⟩

theorem cycle_refused {s : State} {r : Refusal} (h : cycle s = .refused r) :
    ∃ i, s.fetch = .ok i ∧ exec i s = .refused r := by
  unfold cycle raise at h
  split at h
  · cases h
  · rename_i i hi
    exact ⟨i, hi, h⟩

theorem cycle_of_fetch {s : State} {i : Instr} (h : s.fetch = .ok i) : cycle s = exec i s := by
  simp only [cycle, h]

/-- `Boot` goes on exactly when the ROM fits. -/
theorem boot_next {capacity : Nat} {font : Vector Byte 80} {rom : List Byte} {t : State}
    (h : boot capacity font rom = .next t) : rom.length ≤ 3583 ∧ t = State.booted capacity font rom := by
  have e : romMax = 3583 := rfl
  simp only [boot, raise] at h
  split_ifs at h with hr
  exact ⟨by omega, by simpa [eq_comm] using h⟩

theorem State.reboot_next {s t : State} {rom : List Byte} (h : s.reboot rom = .next t) :
    rom.length ≤ 3583 ∧ t = { State.booted s.stack.length s.font rom with
      pending := s.pending, rndIn := s.rndIn, rndDraws := s.rndDraws } := by
  unfold State.reboot at h
  split at h
  · rename_i u hu
    obtain ⟨hr, rfl⟩ := boot_next hu
    exact ⟨hr, by simpa [eq_comm] using h⟩
  · cases h
  · cases h

/-- What one step that goes on can be: a Step of the core, or one of the three other events. -/
theorem step_next {s t : State} (h : step s = .next t) :
    (s.pending = [] ∧ cycle s = .next t) ∨
    (∃ rest, s.pending = .step :: rest ∧ cycle { s with pending := rest } = .next t) ∨
    (∃ rest, s.pending = .tick :: rest ∧ t = State.tick { s with pending := rest }) ∨
    (∃ k b rest, s.pending = .keyWrite k b :: rest ∧ t = State.keyWrite { s with pending := rest } k b) ∨
    (∃ rom rest, s.pending = .boot rom :: rest ∧ State.reboot { s with pending := rest } rom = .next t) := by
  unfold step nextEvent at h
  split at h
  · rename_i hp
    exact .inl ⟨hp, h⟩
  · rename_i e rest hp
    cases e with
    | step => exact .inr (.inl ⟨rest, hp, h⟩)
    | tick => exact .inr (.inr (.inl ⟨rest, hp, by simpa [runEvent, eq_comm] using h⟩))
    | keyWrite k b => exact .inr (.inr (.inr (.inl ⟨k, b, rest, hp, by simpa [runEvent, eq_comm] using h⟩)))
    | boot rom => exact .inr (.inr (.inr (.inr ⟨rom, rest, hp, h⟩)))

end Sys2Proof.Machine
end

