-- ==== Sys2Proof/Tests/Slice0.lean ====
section
/-! SUPPORT. The model's own tests. Every expected value is from a vector of spec/95_test_vectors.md (its number stands in
the docstring), from the rule that the docstring names or from the encoding patterns of spec/30_encoding.md, none from the
model. The last part shows for each
obligation with hypotheses a concrete state that meets them. -/

namespace Sys2Proof.Tests

open Sys2Proof Sys2Proof.Machine

/-- The outcome is a next state, and it passes. -/
def passes (o : Outcome) (p : State → Bool) : Bool :=
  match o with
  | .next t => p t
  | .fault _ => false
  | .refused _ => false

/-- The outcome is this fault. -/
def faultsWith (o : Outcome) (f : Fault) : Bool :=
  match o with
  | .next _ => false
  | .fault g => g == f
  | .refused _ => false

/-- The reset state with some registers set. -/
def regs (l : List (Reg × Byte)) : State := l.foldl (fun s p => s.setReg p.1 p.2) State.reset

/-- One Step on the word `w` from `s`, the word standing at `pc`. -/
def run (w : Word) (s : State) : Outcome := step (s.withFetchWord 16 w.toNat)

/-- The lit pixels, as (row, column). -/
def lit (s : State) : List (Nat × Nat) :=
  s.fb.toList.zipIdx.flatMap fun row => row.1.toList.zipIdx.filterMap fun p => if p.1 then some (row.2, p.2) else none

/-- The bytes of memory at `a`, `a + 1`, and so on. -/
def bytesAre (s : State) (a : Nat) (l : List Byte) : Bool := s.mem.readBlock a l.length == l

/-! Well-formedness: the one check there is refuses the two operands that another row takes. -/

theorem test_wf_refuses_sys_0E0 : (Instr.sys 0x0E0).wf = false := by decide
theorem test_wf_refuses_sys_0EE : (Instr.sys 0x0EE).wf = false := by decide
theorem test_wf_takes_sys_0E1 : (Instr.sys 0x0E1).wf = true := by decide

/-! Decoding, one word for each constructor, written out nibble by nibble from the patterns of 30_encoding.md. -/

theorem test_decode_cls : decodeWord 0x00E0 = .ok .cls := rfl
theorem test_decode_ret : decodeWord 0x00EE = .ok .ret := rfl
theorem test_decode_sys : decodeWord 0x0ABC = .ok (.sys 0xABC) := rfl
theorem test_decode_jp : decodeWord 0x1234 = .ok (.jp 0x234) := rfl
theorem test_decode_call : decodeWord 0x2345 = .ok (.call 0x345) := rfl
theorem test_decode_seImm : decodeWord 0x3A42 = .ok (.seImm 10 0x42) := rfl
theorem test_decode_sneImm : decodeWord 0x4B17 = .ok (.sneImm 11 0x17) := rfl
theorem test_decode_seReg : decodeWord 0x5C30 = .ok (.seReg 12 3) := rfl
theorem test_decode_ldImm : decodeWord 0x6A02 = .ok (.ldImm 10 0x02) := rfl
theorem test_decode_addImm : decodeWord 0x7FFE = .ok (.addImm 15 0xFE) := rfl
theorem test_decode_ldReg : decodeWord 0x8120 = .ok (.ldReg 1 2) := rfl
theorem test_decode_orReg : decodeWord 0x8341 = .ok (.orReg 3 4) := rfl
theorem test_decode_andReg : decodeWord 0x8562 = .ok (.andReg 5 6) := rfl
theorem test_decode_xorReg : decodeWord 0x8783 = .ok (.xorReg 7 8) := rfl
theorem test_decode_addReg : decodeWord 0x89A4 = .ok (.addReg 9 10) := rfl
theorem test_decode_subReg : decodeWord 0x8BC5 = .ok (.subReg 11 12) := rfl
theorem test_decode_shr : decodeWord 0x8DE6 = .ok (.shr 13) := rfl
theorem test_decode_subn : decodeWord 0x8F07 = .ok (.subn 15 0) := rfl
theorem test_decode_shl : decodeWord 0x812E = .ok (.shl 1) := rfl
theorem test_decode_sneReg : decodeWord 0x9125 = .ok (.sneReg 1 2) := rfl
theorem test_decode_ldI : decodeWord 0xA2F0 = .ok (.ldI 0x2F0) := rfl
theorem test_decode_jpV0 : decodeWord 0xB300 = .ok (.jpV0 0x300) := rfl
theorem test_decode_rnd : decodeWord 0xC30F = .ok (.rnd 3 0x0F) := rfl
theorem test_decode_drw : decodeWord 0xD125 = .ok (.drw 1 2 5) := rfl
theorem test_decode_skp : decodeWord 0xE29E = .ok (.skp 2) := rfl
theorem test_decode_sknp : decodeWord 0xE3A1 = .ok (.sknp 3) := rfl
theorem test_decode_ldFromDt : decodeWord 0xF307 = .ok (.ldFromDt 3) := rfl
theorem test_decode_ldKey : decodeWord 0xF50A = .ok (.ldKey 5) := rfl
theorem test_decode_ldToDt : decodeWord 0xF315 = .ok (.ldToDt 3) := rfl
theorem test_decode_ldToSt : decodeWord 0xF418 = .ok (.ldToSt 4) := rfl
theorem test_decode_addI : decodeWord 0xF21E = .ok (.addI 2) := rfl
theorem test_decode_ldFont : decodeWord 0xF129 = .ok (.ldFont 1) := rfl
theorem test_decode_ldBcd : decodeWord 0xF433 = .ok (.ldBcd 4) := rfl
theorem test_decode_store : decodeWord 0xF255 = .ok (.store 2) := rfl
theorem test_decode_load : decodeWord 0xFE65 = .ok (.load 14) := rfl
theorem test_decode_alunop8 : decodeWord 0x8128 = .ok .alunop8 := rfl
theorem test_decode_alunop9 : decodeWord 0x8129 = .ok .alunop9 := rfl
theorem test_decode_alunopA : decodeWord 0x812A = .ok .alunopA := rfl
theorem test_decode_alunopB : decodeWord 0x812B = .ok .alunopB := rfl
theorem test_decode_alunopC : decodeWord 0x812C = .ok .alunopC := rfl
theorem test_decode_alunopD : decodeWord 0x812D = .ok .alunopD := rfl
theorem test_decode_alunopF : decodeWord 0x812F = .ok .alunopF := rfl

/-- 30_encoding.md section 4: undefined low bytes of class E and F, rejected by name; and too few bytes. -/
theorem test_decode_rejects : decodeWord 0xE09F = .error (.undefinedClassE 0xE09F) ∧ decodeWord 0xF090 = .error (.undefinedClassF 0xF090) ∧
    decode [0x60] = .error .truncated := ⟨rfl, rfl, rfl⟩

/-- R77: an encoder emits 0 in a don't-care field. -/
theorem test_encode : encode (.sneReg 1 2) = [0x91, 0x20] ∧ encode (.shr 13) = [0x8D, 0x06] ∧ encode .cls = [0x00, 0xE0] := by
  decide

/-- Two bytes, the first in the high half (20_memory.md R53), with what follows them left over. -/
theorem test_decode_leaves_the_rest : decode [0x6A, 0x02, 0xFF] = .ok (.ldImm 10 0x02, [0xFF]) := rfl

/-! Fetch. -/

/-- D3: an odd `pc` fetches as an even one does. -/
theorem test_fetch_odd : passes (run 0x6107 (State.reset.setPc 0x201)) (fun t => t.reg 1 == 7 && t.pc == 0x203) = true := by
  decide

/-- D4, D5: the last legal fetch, and the first that is not. -/
theorem test_fetch_end : passes (run 0x6001 (State.reset.setPc 0xFFE)) (fun t => t.reg 0 == 1 && t.pc == 0x1000) = true ∧
    faultsWith (step (State.reset.setPc 0xFFF)) (.pcOutOfRange 0xFFF) = true := by decide

/-- D6, D8. -/
theorem test_illegal : faultsWith (run 0xE000 State.reset) (.illegalInstruction 0xE000 0x200) = true ∧
    faultsWith (run 0xF1FF State.reset) (.illegalInstruction 0xF1FF 0x200) = true := by decide

/-- The word handed to `withFetchWord` is the one that the next fetch reads, from anywhere and whatever event waits. -/
theorem test_withFetchWord : State.fetchWord ({ State.reset with pc := 0x1000, pending := [.tick] }.withFetchWord 16 0xD125) = 0xD125 ∧
    decodeTableWord 16 0xD125 = some (.drw 1 2 5) := by decide

/-! Control transfer. -/

/-- D11, C4: class 0 words other than CLS and RET are plain jumps. -/
theorem test_sys : passes (run 0x00E1 State.reset) (fun t => t.pc == 0x0E1 && t.sp == 0) = true ∧
    passes (run 0x0000 State.reset) (fun t => t.pc == 0) = true := by decide

/-- C1, C12. -/
theorem test_jp : passes (run 0x1234 State.reset) (fun t => t.pc == 0x234) = true ∧
    passes (run 0x1FFF State.reset) (fun t => t.pc == 0xFFF) = true := by decide

/-- C5. -/
theorem test_call : passes (run 0x2300 State.reset)
    (fun t => t.sp == 1 && t.stack[1]? == some 0x0202 && t.stack[0]? == some 0 && t.pc == 0x300) = true := by decide

/-- C8, the last Step that retires and the one that overflows. -/
theorem test_call_overflow : passes (run 0x2200 { State.reset with sp := 14 }) (fun t => t.sp == 15) = true ∧
    faultsWith (run 0x2200 { State.reset with sp := 15 }) (.stackOverflow 0x200 0x2200) = true := by decide

/-- C6: the entry stays. -/
theorem test_ret : passes (run 0x00EE { State.reset with sp := 1, stack := State.reset.stack.set 1 0x0202, pc := 0x300 })
    (fun t => t.pc == 0x202 && t.sp == 0 && t.stack[1]? == some 0x0202) = true := by decide

/-- C7. -/
theorem test_ret_underflow : faultsWith (run 0x00EE State.reset) (.stackUnderflow 0x200 0x00EE) = true := by decide

/-- C10, C11: no wrap at 12 bits; always `v[0]`. -/
theorem test_jpV0 : passes (run 0xBFFF (regs [(0, 0xFF)])) (fun t => t.pc == 0x10FE) = true ∧
    passes (run 0xB300 (regs [(0, 0x01), (3, 0xFF)])) (fun t => t.pc == 0x301) = true := by decide

/-! Skips. -/

/-- K1, K2. -/
theorem test_seImm : passes (run 0x3342 (regs [(3, 0x42)])) (fun t => t.pc == 0x204) = true ∧
    passes (run 0x3343 (regs [(3, 0x42)])) (fun t => t.pc == 0x202) = true := by decide

/-- K3, K4. -/
theorem test_sneImm : passes (run 0x4342 (regs [(3, 0x42)])) (fun t => t.pc == 0x202) = true ∧
    passes (run 0x4300 (regs [(3, 0x42)])) (fun t => t.pc == 0x204) = true := by decide

/-- D9, K6: the low nibble is not decoded. -/
theorem test_seReg : passes (run 0x5121 (regs [(1, 7), (2, 7)])) (fun t => t.pc == 0x204) = true ∧
    passes (run 0x5120 (regs [(1, 7), (2, 8)])) (fun t => t.pc == 0x202) = true := by decide

/-- D10, K9. -/
theorem test_sneReg : passes (run 0x9125 (regs [(1, 7), (2, 8)])) (fun t => t.pc == 0x204) = true ∧
    passes (run 0x9120 (regs [(1, 7), (2, 7)])) (fun t => t.pc == 0x202) = true := by decide

/-! Load, arithmetic, logic, shift, random. -/

/-- A1. -/
theorem test_ldImm : passes (run 0x6F7B State.reset) (fun t => t.reg 15 == 0x7B && t.pc == 0x202) = true := by decide

/-- A2: wraps, no flag. -/
theorem test_addImm : passes (run 0x7102 (regs [(1, 0xFF)])) (fun t => t.reg 1 == 0x01 && t.reg 15 == 0) = true := by
  decide

/-- A4. -/
theorem test_ldReg : passes (run 0x8120 (regs [(2, 0x5A)])) (fun t => t.reg 1 == 0x5A) = true := by decide

/-- A5: VF unchanged. -/
theorem test_orReg : passes (run 0x8121 (regs [(1, 0xF0), (2, 0x0F), (15, 1)])) (fun t => t.reg 1 == 0xFF && t.reg 15 == 1) = true := by
  decide

/-- A6. -/
theorem test_andReg : passes (run 0x8122 (regs [(1, 0xF0), (2, 0x3C)])) (fun t => t.reg 1 == 0x30) = true := by decide

/-- A7, A8. -/
theorem test_xorReg : passes (run 0x8123 (regs [(1, 0xF0), (2, 0x3C)])) (fun t => t.reg 1 == 0xCC) = true ∧
    passes (run 0x8113 (regs [(1, 0xA5)])) (fun t => t.reg 1 == 0x00) = true := by decide

/-- A9, A11: 256 carries, 255 does not. -/
theorem test_addReg : passes (run 0x8124 (regs [(1, 0xFF), (2, 0x01)])) (fun t => t.reg 1 == 0x00 && t.reg 15 == 1) = true ∧
    passes (run 0x8124 (regs [(1, 0xFF), (2, 0x00)])) (fun t => t.reg 1 == 0xFF && t.reg 15 == 0) = true := by decide

/-- A13, A14: VF as destination and as operand. -/
theorem test_addReg_vf : passes (run 0x8F14 (regs [(15, 0xF0), (1, 0x20)])) (fun t => t.reg 15 == 0x10) = true ∧
    passes (run 0x81F4 (regs [(1, 0x10), (15, 0x05)])) (fun t => t.reg 1 == 0x15 && t.reg 15 == 0) = true := by decide

/-- A16, A17: borrow, and the strict comparison. -/
theorem test_subReg : passes (run 0x8125 (regs [(1, 0x01), (2, 0x02)])) (fun t => t.reg 1 == 0xFF && t.reg 15 == 0) = true ∧
    passes (run 0x8125 (regs [(1, 5), (2, 5), (15, 1)])) (fun t => t.reg 1 == 0 && t.reg 15 == 0) = true := by decide

/-- A19, A21. -/
theorem test_subReg_vf : passes (run 0x81F5 (regs [(1, 0x10), (15, 0x05)])) (fun t => t.reg 1 == 0x0F && t.reg 15 == 1) = true ∧
    passes (run 0x8F15 (regs [(15, 9), (1, 3)])) (fun t => t.reg 15 == 0xFE) = true := by decide

/-- A23, A26: the operand is `v[x]`; VF as destination. -/
theorem test_shr : passes (run 0x8126 (regs [(1, 0x05), (2, 0xEE)])) (fun t => t.reg 1 == 0x02 && t.reg 15 == 1 && t.reg 2 == 0xEE) = true ∧
    passes (run 0x8F06 (regs [(15, 3)])) (fun t => t.reg 15 == 0) = true := by decide

/-- A27, A28. -/
theorem test_subn : passes (run 0x8127 (regs [(1, 0x01), (2, 0x10)])) (fun t => t.reg 1 == 0x0F && t.reg 15 == 1) = true ∧
    passes (run 0x8127 (regs [(1, 0x02), (2, 0x01)])) (fun t => t.reg 1 == 0xFF && t.reg 15 == 0) = true := by decide

/-- A30, A31. -/
theorem test_subn_vf : passes (run 0x81F7 (regs [(1, 3), (15, 9)])) (fun t => t.reg 1 == 0xFE && t.reg 15 == 1) = true ∧
    passes (run 0x8F17 (regs [(15, 2), (1, 9)])) (fun t => t.reg 15 == 8) = true := by decide

/-- A32, A34. -/
theorem test_shl : passes (run 0x812E (regs [(1, 0x81), (2, 0xEE)])) (fun t => t.reg 1 == 0x02 && t.reg 15 == 1 && t.reg 2 == 0xEE) = true ∧
    passes (run 0x8F0E (regs [(15, 0x81)])) (fun t => t.reg 15 == 0x02) = true := by decide

/-- A36, all seven words. -/
theorem test_alunop : ([0x8128, 0x8129, 0x812A, 0x812B, 0x812C, 0x812D, 0x812F].all fun w =>
    passes (run w (regs [(1, 0x12), (2, 0x34), (15, 1)])) fun t =>
      t.pc == 0x202 && t.v == (regs [(1, 0x12), (2, 0x34), (15, 1)]).v) = true := by decide

/-- A37. -/
theorem test_rnd : passes (run 0xC30F { State.reset with rndIn := [0xA7, 0x55] }) (fun t => t.reg 3 == 0x07 && t.rndIn == [0x55]) = true := by
  decide

/-- A38: with nothing supplied the byte is free, and the mask 0 clears it all the same. -/
theorem test_rnd_free : ∃ t, exec (.rnd 3 0x00) State.reset = .next t ∧ t.reg 3 = 0x00 ∧ t.pc = 0x202 ∧ t.rndDraws = 1 :=
  ⟨_, rfl, by simp, rfl, rfl⟩

/-! Index and memory. -/

/-- M1, M2. -/
theorem test_ldI : passes (run 0xA2F0 State.reset) (fun t => t.i == 0x2F0) = true ∧
    passes (run 0xAFFF State.reset) (fun t => t.i == 0xFFF) = true := by decide

/-- M3, M4. -/
theorem test_addI : passes (run 0xF21E ((regs [(2, 0x10)]).setI 0x300)) (fun t => t.i == 0x310 && t.reg 15 == 0) = true ∧
    passes (run 0xF21E ((regs [(2, 0)]).setI 0xFFF)) (fun t => t.i == 0xFFF) = true := by decide

/-- M5, M6. -/
theorem test_addI_range : faultsWith (run 0xF21E ((regs [(2, 1)]).setI 0xFFF)) (.indexOutOfRange 0x1000 0x200 0xF21E) = true ∧
    faultsWith (run 0xF21E ((regs [(2, 0xFF)]).setI 0xF80)) (.indexOutOfRange 0x107F 0x200 0xF21E) = true := by decide

/-- M7, M9: the whole byte counts. -/
theorem test_ldFont : passes (run 0xF129 (regs [(1, 0x0A)])) (fun t => t.i == 0x032) = true ∧
    passes (run 0xF129 (regs [(1, 0xFF)])) (fun t => t.i == 0x4FB) = true := by decide

/-- M10, M13: the last legal base. -/
theorem test_ldBcd : passes (run 0xF433 ((regs [(4, 0x9C)]).setI 0x300)) (fun t => bytesAre t 0x300 [1, 5, 6] && t.i == 0x300) = true ∧
    passes (run 0xF433 ((regs [(4, 0x07)]).setI 0xFFD)) (fun t => bytesAre t 0xFFD [0, 0, 7]) = true := by decide

/-- M14, M18: nothing is written. -/
theorem test_store_range : faultsWith (run 0xF433 (State.reset.setI 0xFFE)) (.memoryOutOfRange 0x1000 0x200 0xF433) = true ∧
    faultsWith (run 0xFF55 (State.reset.setI 0xFF1)) (.memoryOutOfRange 0x1000 0x200 0xFF55) = true := by decide

/-- M15. -/
theorem test_store : passes (run 0xF255 ((regs [(0, 0x11), (1, 0x22), (2, 0x33), (3, 0x44)]).setI 0x400))
    (fun t => bytesAre t 0x400 [0x11, 0x22, 0x33, 0] && t.i == 0x400) = true := by decide

/-- M20, M19's `v[3]`: the default FONT, and the registers above `x` stay. -/
theorem test_load : passes (run 0xF465 (regs [(5, 0x77)]))
    (fun t => t.v.toList.take 6 == [0xF0, 0x90, 0x90, 0x90, 0xF0, 0x77] && t.i == 0) = true := by decide

/-- M21, M22. -/
theorem test_load_range : faultsWith (run 0xF165 (State.reset.setI 0xFFF)) (.memoryOutOfRange 0x1000 0x200 0xF165) = true ∧
    passes (run 0xF065 ((regs [(0, 1)]).setI 0xFFF)) (fun t => t.reg 0 == 0) = true := by decide

/-! Display. -/

/-- G1. -/
theorem test_cls : passes (run 0x00E0 ((regs [(15, 3)]).setFb (Vector.replicate 32 (Vector.replicate 64 true))))
    (fun t => lit t == [] && t.reg 15 == 3 && t.pc == 0x202) = true := by decide

/-- G7: the origin is the old VF; the 14 pixels of the glyph "0". -/
theorem test_drw_glyph : passes (run 0xDF15 (regs [(15, 5)])) (fun t => t.reg 15 == 0 && lit t ==
    [(0, 5), (0, 6), (0, 7), (0, 8), (1, 5), (1, 8), (2, 5), (2, 8), (3, 5), (3, 8), (4, 5), (4, 6), (4, 7), (4, 8)]) = true := by
  decide

/-- G5: the origin wraps, pixels clip; G11 and G12: only a 1 bit on a lit pixel collides. -/
theorem test_drw : passes (run 0xD125 ((regs [(1, 126), (2, 62)]).setI 0x00F)) (fun t => lit t == [(30, 62), (30, 63)] && t.reg 15 == 0) = true ∧
    passes (run 0xD011 ((State.reset.setFb (Framebuffer.xorPixel blankFramebuffer 0 0 true)).setMem [(0x300, 0x80)] |>.setI 0x300))
      (fun t => lit t == [] && t.reg 15 == 1) = true ∧
    passes (run 0xD011 ((State.reset.setFb (Framebuffer.xorPixel blankFramebuffer 0 1 true)).setMem [(0x300, 0x80)] |>.setI 0x300))
      (fun t => lit t == [(0, 0), (0, 1)] && t.reg 15 == 0) = true := by decide

/-! Timers, keypad and the events. -/

/-- T1. -/
theorem test_ldFromDt : passes (run 0xF307 (State.reset.setDt 0x2A)) (fun t => t.reg 3 == 0x2A && t.dt == 0x2A) = true := by decide

/-- T2. -/
theorem test_ldToDt : passes (run 0xF315 (regs [(3, 0x3C)])) (fun t => t.dt == 0x3C) = true := by decide

/-- T3. -/
theorem test_ldToSt : passes (run 0xF318 (regs [(3, 0x05)])) (fun t => t.st == 5) = true := by decide

/-- T4, T5. -/
theorem test_tick : passes (step { State.reset with dt := 3, pending := [.tick] }) (fun t => t.dt == 2 && t.st == 0) = true ∧
    passes (step { State.reset with st := 1, pending := [.tick] }) (fun t => t.dt == 0 && t.st == 0) = true := by decide

/-- T7, T8. -/
theorem test_skp : passes (run 0xE29E ((regs [(2, 0x0A)]).keyWrite 10 true)) (fun t => t.pc == 0x204) = true ∧
    passes (run 0xE29E (regs [(2, 0x0A)])) (fun t => t.pc == 0x202) = true := by decide

/-- T9, T10. -/
theorem test_sknp : passes (run 0xE2A1 (regs [(2, 0x0A)])) (fun t => t.pc == 0x204) = true ∧
    passes (run 0xE2A1 ((regs [(2, 0x0A)]).keyWrite 10 true)) (fun t => t.pc == 0x202) = true := by decide

/-- T11, T12. -/
theorem test_key_range : faultsWith (run 0xE29E (regs [(2, 0x10)])) (.keyIndexOutOfRange 0x10 0x200 0xE29E) = true ∧
    faultsWith (run 0xE2A1 (regs [(2, 0xFF)])) (.keyIndexOutOfRange 0xFF 0x200 0xE2A1) = true := by decide

/-- T13, T15. -/
theorem test_ldKey : (State.reset.withFetchWord 16 0xF50A).stepResult = .waitKey ∧
    passes (run 0xF50A ((State.reset.keyWrite 9 true).keyWrite 3 true)) (fun t => t.reg 5 == 3 && t.pc == 0x202) = true := by decide

/-- T17. -/
theorem test_keyWrite : passes (step { State.reset.keyWrite 10 true with pending := [.keyWrite 10 false] }) (fun t => t.key[10] == false) = true := by
  decide

/-- B1, and 20_memory.md's table: the corners of the FONT and what follows it. -/
theorem test_reset_memory : bytesAre State.reset 0x000 [0xF0, 0x90, 0x90, 0x90, 0xF0, 0x20] = true ∧
    bytesAre State.reset 0x04E [0x80, 0x80, 0, 0] = true ∧ State.reset.mem.read 0x200 = 0 ∧ State.reset.pc = 0x200 := by decide

/-- S11's ROM, through `Boot`. -/
theorem test_boot : passes (boot 16 defaultFont [0x6A, 0x02]) (fun s => passes (step s) fun t => t.reg 10 == 2 && t.pc == 0x202) = true := by
  decide

/-- `Boot` with an empty ROM is the reset state, the memory in the same canonical form. -/
theorem test_boot_empty : State.booted 16 defaultFont [] = State.reset := by decide

/-- S11's ROM through a `Boot` event on an instance with 12 entries and a FONT of 80 bytes 0x3C, in a state with stale data:
R260's `FONT[k]` and `rom[k]`, and nothing of the old state. -/
theorem test_boot_event : passes (step { (State.reset.setMem [(0x000, 1), (0x300, 2)]).setReg 4 9 with
      stack := List.replicate 12 7, sp := 3, font := Vector.replicate 80 0x3C, pending := [.boot [0x6A, 0x02], .tick] })
    (fun t => bytesAre t 0x04E [0x3C, 0x3C, 0] && bytesAre t 0x000 [0x3C] && bytesAre t 0x200 [0x6A, 0x02, 0] &&
      bytesAre t 0x300 [0] && t.reg 4 == 0 && t.sp == 0 && t.stack == List.replicate 12 0 && t.pc == 0x200 &&
      t.pending == [.tick]) = true := by decide

/-- B3. -/
theorem test_boot_too_large : boot 16 defaultFont (List.replicate 3584 0xAA) = .fault (.romTooLarge 3584) := by
  have e : romMax = 3583 := rfl
  rw [boot, e, List.length_replicate]
  rfl

/-- Writing back what an unlisted address reads as removes the entry: equal memories are equal data. -/
theorem test_memory_canonical : (Memory.write (Memory.write [] 0x300 7) 0x300 0) = [] ∧
    (Memory.write (Memory.write [] 0x301 7) 0x000 9) = [(0x000, 9), (0x301, 7)] ∧ Memory.write [] 0x000 0xF0 = [] := by decide

/-! Witnesses: for each obligation with hypotheses, concrete inputs that meet all of them, one for each clause, at the edges
of its range. -/

/-- The state with `sp = k`, the entry `0x0202` at every index, and `pc = a`. -/
def stacked (k : Nat) (a : Word) : State := { State.reset with sp := k, stack := List.replicate 16 0x0202, pc := a }

theorem witness_DecodeAfterEncode : (Instr.drw 15 15 15).wf = true ∧ (Instr.sys 0x0E1).wf = true ∧ Instr.alunopF.wf = true := by decide

theorem witness_EncodeAfterDecode : decodeWord 0x9125 = .ok (.sneReg 1 2) ∧ decodeWord 0xFF65 = .ok (.load 15) := ⟨rfl, rfl⟩

/-- `DecodesAs`: with the bits outside the mask all 0 and all 1, the word has the pattern under the mask, for every row. -/
theorem witness_DecodesAs : ∀ r ∈ opcodeMap, r.pattern &&& r.mask = r.pattern ∧ (r.pattern ||| ~~~r.mask) &&& r.mask = r.pattern := by
  decide

theorem witness_JumpsSetPc : (0x00E1 : Word) &&& 0xF000 = 0x0000 ∧ (0x00E1 : Word) ≠ 0x00E0 ∧ (0x00E1 : Word) ≠ 0x00EE := by decide

theorem witness_StepRunsTheDecodedInstruction :
    (∃ s : State, s.pc.toNat = 0xFFE ∧ s.pending = [] ∧
      decode [s.mem.read s.pc.toNat, s.mem.read (s.pc.toNat + 1)] = .ok (.drw 1 2 5, [])) ∧
    (∃ s : State, s.pc.toNat ≤ 0xFFE ∧ s.pending = [.step, .tick] ∧
      decode [s.mem.read s.pc.toNat, s.mem.read (s.pc.toNat + 1)] = .ok (.sys 0, [])) ∧
    (∃ s : State, s.pc.toNat = 0xFFF ∧ s.pending = [.tick]) :=
  ⟨⟨(State.reset.setPc 0xFFE).withFetchWord 16 0xD125, rfl, rfl, rfl⟩,
    ⟨{ State.reset with pending := [.step, .tick] }, by decide, rfl, rfl⟩,
    ⟨{ State.reset with pc := 0xFFF, pending := [.tick] }, rfl, rfl⟩⟩

theorem witness_FetchIsBigEndian : (State.reset.setPc 0xFFE).pc.toNat ≤ 0xFFE := by decide

theorem witness_FetchAndDecodeFaults :
    (∃ s : State, s.pending = [] ∧ s.pc.toNat = 0xFFF) ∧
    (∃ s : State, s.pending = [] ∧ s.pc.toNat = 0xFFE ∧ decodeWord s.fetchWord = .error (.undefinedClassE 0xE000)) :=
  ⟨⟨State.reset.setPc 0xFFF, rfl, rfl⟩, ⟨(State.reset.setPc 0xFFE).withFetchWord 16 0xE000, rfl, rfl, rfl⟩⟩

theorem witness_BootGivesTheResetValues : (List.replicate 3583 (0xAA : Byte)).length ≤ 3583 ∧ ([] : List Byte).length ≤ 3583 := by
  rw [List.length_replicate]
  decide

theorem witness_BootRejectsExactlyTheLargeRoms : 3583 < (List.replicate 3584 (0xAA : Byte)).length ∧
    boot 12 defaultFont (List.replicate 3584 0xAA) = .fault (.romTooLarge 3584) := by
  have e : romMax = 3583 := rfl
  rw [boot, e, List.length_replicate]
  exact ⟨by decide, rfl⟩

/-- The largest ROM and the smallest that is too large; and two states that differ. -/
theorem witness_RebootForgetsTheOldState :
    { State.reset with pending := [.boot (List.replicate 3583 0xAA)] }.pending = [.boot (List.replicate 3583 0xAA)] ∧
    (List.replicate 3583 (0xAA : Byte)).length ≤ 3583 ∧ 3583 < (List.replicate 3584 (0xAA : Byte)).length ∧
    ∃ s₁ s₂ : State, s₁ ≠ s₂ ∧ s₁.pending = [.boot [0x12, 0x00]] ∧ s₂.pending = [.boot [0x12, 0x00]] ∧
      s₁.stack.length = s₂.stack.length ∧ s₁.font = s₂.font ∧ s₁.rndIn = s₂.rndIn ∧ s₁.rndDraws = s₂.rndDraws := by
  rw [List.length_replicate, List.length_replicate]
  exact ⟨rfl, by decide, by decide, { State.reset with pending := [.boot [0x12, 0x00]] },
    { State.reset with pc := 0x300, pending := [.boot [0x12, 0x00]] },
    fun h => absurd (congrArg State.pc h) (by decide), rfl, rfl, rfl, rfl, rfl, rfl⟩

/-- At the edges: `sp` at the last entry, `I = 0xFFF`; and with the smallest capacity. -/
theorem witness_StepKeepsTheInvariant :
    (∃ s : State, s.Inv ∧ s.sp + 1 = s.stack.length ∧ s.i.toNat = 0xFFF ∧ passes (step s) (fun _ => true) = true) ∧
    (∃ s : State, s.Inv ∧ s.stack.length = 12 ∧ passes (step s) (fun _ => true) = true) :=
  ⟨⟨{ (stacked 15 0x200).withFetchWord 16 0x00EE with i := 0xFFF }, ⟨by decide, by decide, by decide, by decide⟩, by decide, by decide, by decide⟩,
    ⟨{ State.reset with stack := List.replicate 12 0 }, ⟨by decide, by decide, by decide, by decide⟩, by decide, by decide⟩⟩

/-- From the last `pc` that can be fetched, with the word 0x0000 there. -/
theorem witness_StepKeepsThePcBounds : ∃ s : State, s.PcBounds ∧ s.pc.toNat = 0xFFE ∧ passes (step s) (fun t => t.pc == 0) = true :=
  ⟨stacked 15 0xFFE, ⟨by decide, by simp [stacked]⟩, by decide, by decide⟩

theorem witness_StepKeepsTheParameters : passes (step State.reset) (fun _ => true) = true ∧
    passes (step { State.reset with pending := [.boot []] }) (fun _ => true) = true := by decide

theorem witness_NothingIsRefused : exec .ret (stacked 16 0x200) = .refused (.spOutsideStack 16) ∧
    (stacked 15 0x200).sp < (stacked 15 0x200).stack.length := ⟨rfl, by decide⟩

theorem witness_ExecChangesOnlyWhatItsRuleWrites : ∃ s t : State, exec (.store 15) s = .next t :=
  ⟨State.reset.setI 0xFF0, _, rfl⟩

/-- `CALL` at the last `sp` that pushes, and at the one that overflows; `pc` at the end of the fetchable range. -/
theorem witness_CallPushesTheReturnAddress : (stacked 14 0xFFE).sp + 1 < (stacked 14 0xFFE).stack.length ∧
    (stacked 14 0xFFE).pc.toNat ≤ 0xFFE ∧ (stacked 15 0x200).sp + 1 = (stacked 15 0x200).stack.length := by decide

theorem witness_ReturnPopsTheReturnAddress : (stacked 15 0x200).sp ≠ 0 ∧ (stacked 15 0x200).sp < (stacked 15 0x200).stack.length ∧
    (stacked 1 0x200).sp ≠ 0 ∧ (stacked 0 0x200).sp = 0 := by decide

theorem witness_ReturnComesBackAfterTheCall : ∃ t u : State, exec (.call 0x300) (stacked 14 0x200) = .next t ∧ u.sp = t.sp ∧
    u.stack = t.stack ∧ u ≠ t :=
  ⟨_, { (stacked 14 0x200) with sp := 15, stack := (stacked 14 0x200).stack.set 15 0x0202, pc := 0x400 }, rfl, rfl, rfl,
    fun h => absurd (congrArg State.pc h) (by decide)⟩

theorem witness_SkipsCompareWithTheImmediate : (regs [(15, 0xFF)]).reg 15 = 0xFF ∧ (regs [(15, 0xFF)]).reg 15 ≠ 0xFE := by decide

theorem witness_SkipsCompareTheRegisters : (regs [(1, 7), (2, 8)]).reg 3 = (regs [(1, 7), (2, 8)]).reg 3 ∧
    (regs [(1, 7), (2, 8)]).reg 1 ≠ (regs [(1, 7), (2, 8)]).reg 2 := by decide

/-- The last sum without a carry and the first with one. -/
theorem witness_AddSetsTheCarry : (1 : Reg) ≠ 15 ∧ ((regs [(1, 0xFF), (2, 0)]).reg 1).toNat + ((regs [(1, 0xFF), (2, 0)]).reg 2).toNat = 255 ∧
    255 < ((regs [(1, 0xFF), (2, 1)]).reg 1).toNat + ((regs [(1, 0xFF), (2, 1)]).reg 2).toNat := by decide

/-- Minuend and subtrahend equal, and one apart; VF as an operand or not. -/
theorem witness_SubtractSetsTheStrictFlag : ∃ (s : State) (f a b : Nat), f = (if (s.reg 15).toNat < (s.reg 1).toNat then 1 else 0) ∧
    a = (if (1 : Reg) = 15 then f else (s.reg 1).toNat) ∧ b = (if (15 : Reg) = 15 then f else (s.reg 15).toNat) ∧ (1 : Reg) ≠ 15 ∧
    f = 1 ∧ a = 0x10 ∧ b = 1 :=
  ⟨regs [(1, 0x10), (15, 0x0F)], 1, 0x10, 1, by decide, by decide, by decide, by decide, rfl, rfl, rfl⟩

theorem witness_Shifts : (14 : Reg) ≠ 15 ∧ (15 : Reg) = 15 := by decide

theorem witness_AluNoOpsOnlyAdvance : ((0x800F, Instr.alunopF) : Word × Instr) ∈
    ([(0x8008, .alunop8), (0x8009, .alunop9), (0x800A, .alunopA), (0x800B, .alunopB), (0x800C, .alunopC),
      (0x800D, .alunopD), (0x800F, .alunopF)] : List (Word × Instr)) := by decide

theorem witness_RandomIsMasked : (0x7F : Byte).getLsbD 7 = false ∧ { State.reset with rndIn := [0xA7] }.rndIn = [0xA7] ∧
    State.reset.rndIn = [] := by decide

/-- The largest sum that fits and the smallest that does not. -/
theorem witness_AddToIndexStaysInRange : ((regs [(2, 0xFF)]).setI 0xF00).i.toNat + (((regs [(2, 0xFF)]).setI 0xF00).reg 2).toNat = 0xFFF ∧
    ((regs [(2, 0xFF)]).setI 0xF01).i.toNat + (((regs [(2, 0xFF)]).setI 0xF01).reg 2).toNat = 0x1000 := by decide

/-- The last legal base of each block, and the first that is not. -/
theorem witness_MemoryBlocks : State.reset.mem.wf ∧ (State.reset.setI 0xFFD).mem.wf ∧ (State.reset.setI 0xFFD).i.toNat + 2 = 0xFFF ∧
    (State.reset.setI 0xFF0).i.toNat + (15 : Reg).val = 0xFFF ∧ (State.reset.setI 0xFFF).i.toNat + (0 : Reg).val = 0xFFF := by decide

theorem witness_AccessPastMemoryFaults : (State.reset.setI 0xFFE).i.toNat + 2 = 0x1000 ∧
    (State.reset.setI 0xFF1).i.toNat + (15 : Reg).val = 0x1000 ∧ 1 ≤ (3 : Nibble).toNat ∧
    (State.reset.setI 0xFFE).i.toNat + (3 : Nibble).toNat - 1 = 0x1000 := by decide

theorem witness_LoadAfterStoreGivesTheRegistersBack : ∃ t u : State, (regs [(3, 9)]).mem.wf ∧ exec (.store 15) (regs [(3, 9)]) = .next t ∧
    u.mem = t.mem ∧ u.i = t.i ∧ u.reg 3 ≠ t.reg 3 :=
  ⟨_, (State.reset.setMem ((regs [(3, 9)]).storeBlock ((regs [(3, 9)]).regBlock 15)).mem), by decide, rfl, rfl, rfl, by decide⟩

/-- The very next Step: `Fx55` at 0x200 stores over the word at 0x202. -/
theorem witness_StoredBytesAreFetched : ∃ t : State, ((regs [(0, 0x12), (1, 0x0A)]).setI 0x202).mem.wf ∧
    exec (.store 1) ((regs [(0, 0x12), (1, 0x0A)]).setI 0x202) = .next t ∧ (0 : Reg) < 1 ∧
    t.pc.toNat = ((regs [(0, 0x12), (1, 0x0A)]).setI 0x202).effectiveAddress (0 : Reg).val :=
  ⟨_, by decide, rfl, by decide, rfl⟩

/-- `n = 0` at the end of memory, the last legal block, a collision, and none. -/
theorem witness_DrawXorsTheSprite : (0 : Nibble).toNat = 0 ∧ (State.reset.setI 0xFF1).i.toNat + (15 : Nibble).toNat - 1 = 0xFFF ∧
    (∃ (s : State) (r : Fin 32) (c : Fin 64), s.i.toNat + (1 : Nibble).toNat - 1 ≤ 0xFFF ∧ s.spritePixel 0 1 1 r c = true ∧
      Framebuffer.pixel s.fb r c = true) ∧
    (∃ s : State, s.i.toNat + (5 : Nibble).toNat - 1 ≤ 0xFFF ∧
      ¬ ∃ r c, s.spritePixel 0 1 5 r c = true ∧ Framebuffer.pixel s.fb r c = true) := by
  refine ⟨rfl, rfl, ⟨State.reset.setFb (Framebuffer.xorPixel blankFramebuffer 0 0 true), 0, 0, by decide, by decide, by decide⟩,
    ⟨State.reset, by decide, ?_⟩⟩
  rintro ⟨r, c, -, h⟩
  simp [State.reset, blankFramebuffer, Framebuffer.pixel] at h

theorem witness_DrawTwiceRestoresTheFramebuffer : ∃ t : State, exec (.drw 0 1 5) (regs [(0, 62), (1, 30)]) = .next t ∧
    t.reg 0 = (regs [(0, 62), (1, 30)]).reg 0 ∧ t.reg 1 = (regs [(0, 62), (1, 30)]).reg 1 :=
  ⟨_, rfl, by simp [vf], by simp [vf]⟩

theorem witness_FramebufferIsSeenOnlyByCollision : (∃ t, exec (.drw 0 1 5) State.reset = .next t) ∧
    faultsWith (exec (.drw 0 1 3) (State.reset.setI 0xFFE)) (.memoryOutOfRange 0x1000 0x200 0xD013) = true :=
  ⟨⟨_, rfl⟩, by decide⟩

/-- The last register value that names a key, with the key down and up, and the first that names none. -/
theorem witness_KeypadSkipsSampleTheLatch : ((regs [(2, 15)]).reg 2).toNat = (15 : Key).val ∧
    ((regs [(2, 15)]).keyWrite 15 true).key[(15 : Key).val] = true ∧ (regs [(2, 15)]).key[(15 : Key).val] = false ∧
    15 < ((regs [(2, 16)]).reg 2).toNat := by decide

/-- Key 15 alone, key 0, and no key. -/
theorem witness_KeyWaitStoresTheSmallestKey :
    ((State.reset.keyWrite 15 true).key[(15 : Key).val] = true ∧ ∀ j : Key, j < 15 → (State.reset.keyWrite 15 true).key[j.val] = false) ∧
    ((State.reset.keyWrite 0 true).key[(0 : Key).val] = true ∧ ∀ j : Key, j < 0 → (State.reset.keyWrite 0 true).key[j.val] = false) ∧
    ∀ k : Key, State.reset.key[k.val] = false := by decide

theorem witness_WaitKeyIsTheIdleStep : (State.reset.withFetchWord 16 0xF00A).stepResult = .waitKey ∧
    ∃ t, State.reset.stepResult = .retired t :=
  ⟨by decide, ⟨_, rfl⟩⟩

theorem witness_KeyWriteEndsTheWait : ∃ s : State, s.fetch = .ok (.ldKey 5) ∧ (∀ k : Key, s.key[k.val] = false) ∧ s.pending = [] ∧
    State.fetch { s with pending := [.keyWrite 7 true] } = .ok (.ldKey 5) :=
  ⟨State.reset.withFetchWord 16 0xF50A, rfl, by decide, rfl, rfl⟩

/-- A timer at 0, at 1 and at 255. -/
theorem witness_TickCountsTheTimersDown : { State.reset with dt := 1, st := 255 }.dt.toNat = 1 ∧
    0 < { State.reset with dt := 1, st := 255 }.st.toNat ∧ State.reset.dt.toNat = 0 := by decide

/-- Each writer makes its change. -/
theorem witness_TimersAndKeysHaveOnlyTheirWriters :
    passes (step { State.reset with dt := 3, st := 2, pending := [.tick] }) (fun t => t.dt != 3 && t.st != 2) = true ∧
    passes (run 0xF315 (regs [(3, 9)])) (fun t => t.dt != 0) = true ∧ passes (run 0xF318 (regs [(3, 9)])) (fun t => t.st != 0) = true ∧
    passes (step { State.reset with pending := [.keyWrite 4 true] }) (fun t => t.key[4] != false) = true := by decide

/-- One state for each line of the table, at the first value that faults. -/
theorem witness_FaultCausesAreTheTable :
    faultsWith (exec (.call 0) (stacked 15 0x200)) (.stackOverflow 0x200 0x2000) = true ∧
    faultsWith (exec .ret (stacked 0 0x200)) (.stackUnderflow 0x200 0x00EE) = true ∧
    faultsWith (exec (.addI 2) ((regs [(2, 1)]).setI 0xFFF)) (.indexOutOfRange 0x1000 0x200 0xF21E) = true ∧
    faultsWith (exec (.load 1) (State.reset.setI 0xFFF)) (.memoryOutOfRange 0x1000 0x200 0xF165) = true ∧
    faultsWith (exec (.sknp 2) (regs [(2, 16)])) (.keyIndexOutOfRange 16 0x200 0xE2A1) = true := by decide

/-- A fault of the fetch, of the decode, and of the execution. -/
theorem witness_FaultRecordsPcAndWord : cycle (State.reset.setPc 0xFFF) = .fault (.pcOutOfRange 0xFFF) ∧
    cycle (State.reset.setPc 0x000) = .fault (.illegalInstruction 0xF090 0x000) ∧
    cycle (State.reset.withFetchWord 16 0x00EE) = .fault (.stackUnderflow 0x200 0x00EE) := ⟨rfl, rfl, rfl⟩

theorem witness_FaultComesAgain : cycle (State.reset.withFetchWord 16 0x00EE) = .fault (.stackUnderflow 0x200 0x00EE) := rfl

theorem witness_SelfJumpIsQuiescent : ∃ s : State, s.finished ∧ s.pending = [] :=
  ⟨State.reset.withFetchWord 16 0x1200, ⟨0x200, rfl, rfl⟩, rfl⟩

end Sys2Proof.Tests
end

section
/-! SUPPORT. The state that `Boot` builds, byte by byte of its memory, and the renderer's port as the flat pixel grid
(10_state.md R31, R33, R38). -/

namespace Sys2Proof.Machine

/-- The customary font ends at 0x04F, so from 0x050 on an address that the list does not name reads as 0. -/
theorem Memory.unlisted_of_font_end_le (a : Nat) (h : 0x050 ≤ a) : Memory.unlisted a = 0 :=
  List.getD_eq_default _ _ (show fontBytes.length ≤ a from h)

/-- Read after a block write, at byte `k` of the block. -/
theorem Memory.read_writeBlock_inside (m : Memory) (a : Nat) (bs : List Byte) (k : Nat)
    (hm : m.Pairwise fun p q => p.1 < q.1) (h : k < bs.length) : (m.writeBlock a bs).read (a + k) = bs[k] := by
  rw [Memory.read_writeBlock m a bs (a + k) hm, if_pos (Nat.le_add_right a k), Nat.add_sub_cancel_left,
    List.getD_eq_getElem _ _ h]

/-- The ROM fits, so `Boot` builds its state (70_reset_and_hazards.md R260, R261). -/
theorem boot_of_length_le (capacity : Nat) (font : Vector Byte 80) (rom : List Byte) (h : rom.length ≤ 3583) :
    boot capacity font rom = .next (State.booted capacity font rom) :=
  if_neg (Nat.not_lt.2 h)

@[simp] theorem Framebuffer.pixel_blankFramebuffer (r : Fin 32) (c : Fin 64) :
    Framebuffer.pixel blankFramebuffer r c = false := by
  simp [Framebuffer.pixel, blankFramebuffer]

section
variable (capacity : Nat) (font : Vector Byte 80) (rom : List Byte)

@[simp] theorem State.reg_booted (k : Reg) : (State.booted capacity font rom).reg k = 0 := by
  simp [State.reg]

/-- Outside the ROM the memory after a `Boot` is what the FONT left. -/
theorem State.read_booted_outside_rom (a : Nat) (h : a < 0x200 ∨ 0x200 + rom.length ≤ a) :
    (State.booted capacity font rom).mem.read a = (Memory.writeBlock [] 0 font.toList).read a := by
  rw [State.booted_mem, Memory.read_writeBlock_outside]
  intro k hk
  simp only [Config.progBase]
  omega

theorem State.read_booted_font (a : Nat) (h : a < 80) : (State.booted capacity font rom).mem.read a = font[a] := by
  rw [State.read_booted_outside_rom capacity font rom a (by omega)]
  have hfont := Memory.read_writeBlock_inside [] 0 font.toList a .nil (by simpa using h)
  simpa using hfont

theorem State.read_booted_rom (k : Nat) (h : k < rom.length) :
    (State.booted capacity font rom).mem.read (0x200 + k) = rom[k] :=
  Memory.read_writeBlock_inside _ 0x200 rom k (Memory.writeBlock_sorted [] 0 font.toList .nil) h

/-- Every byte that neither the FONT nor the ROM covers is 0 after a `Boot`. -/
theorem State.read_booted_elsewhere (a : Nat) (hfont : 0x050 ≤ a) (hrom : a < 0x200 ∨ 0x200 + rom.length ≤ a) :
    (State.booted capacity font rom).mem.read a = 0 := by
  rw [State.read_booted_outside_rom capacity font rom a hrom, Memory.read_writeBlock_outside]
  · exact Memory.unlisted_of_font_end_le a hfont
  · intro k hk
    rw [Vector.length_toList] at hk
    omega

end

/-- A flattened vector lists its rows one after the other. -/
theorem toList_vectorFlatten {α : Type} {m n : Nat} (rows : Vector (Vector α m) n) :
    rows.flatten.toList = rows.toList.flatMap Vector.toList := by
  have hflat : rows.flatten.toList = ((rows.toArray.map Vector.toArray).toList.map Array.toList).flatten :=
    Array.toList_flatten
  rw [hflat, Array.toList_map, List.map_map]
  rfl

/-- The port is the pixel grid laid out flat (10_state.md R31, R33). -/
theorem State.framebufferOut_eq_flatten (s : State) :
    s.framebufferOut = (s.fb.map fun row => row.map flagByte).flatten.toList := by
  simp [State.framebufferOut, toList_vectorFlatten, Vector.toList_map, List.flatMap_map]

end Sys2Proof.Machine
end

section
/-! PROOFS. The statements of 10_state.md: the reset values and the framebuffer port. -/

namespace Sys2Proof.Proofs
open Sys2Proof.Machine

/-- Settles O9: field by field from the laws of `State.booted`, the memory by what the FONT and the ROM cover. -/
theorem bootGivesTheResetValues : Obligations.BootGivesTheResetValues := by
  intro capacity font rom hrom
  refine ⟨State.booted capacity font rom, boot_of_length_le capacity font rom hrom, State.reg_booted capacity font rom,
    rfl, rfl, rfl, ?stackLength, ?stackEntries, rfl, rfl, ?pixels, ?keys, State.read_booted_font capacity font rom,
    ?gap, State.read_booted_rom capacity font rom, ?rest⟩
  case stackLength => simp
  case stackEntries => simp
  case pixels => exact Framebuffer.pixel_blankFramebuffer
  case keys => simp
  case gap => exact fun a hlow hhigh => State.read_booted_elsewhere capacity font rom a hlow (by omega)
  case rest => exact fun a hlow _ => State.read_booted_elsewhere capacity font rom a (by omega) (.inr hlow)

/-- Settles O46: index `64 r + c` of the flat grid is row `r`, column `c`. -/
theorem framebufferPortIsRowMajor : Obligations.FramebufferPortIsRowMajor := by
  intro s
  rw [State.framebufferOut_eq_flatten]
  refine ⟨Vector.length_toList, fun r c => ?_⟩
  have hrow : (r.val * 64 + c.val) / 64 = r.val := by omega
  have hcol : (r.val * 64 + c.val) % 64 = c.val := by omega
  have hlt : r.val * 64 + c.val < 32 * 64 := by omega
  rw [Vector.getElem?_toList, Vector.getElem?_eq_getElem hlt, Vector.getElem_flatten]
  simp only [Vector.getElem_map, hrow, hcol]
  rfl

end Sys2Proof.Proofs
end

section
/-! PROOFS. The statement of 20_memory.md: the byte order of the fetch. -/

namespace Sys2Proof.Machine

theorem State.toNat_fetchWord (s : State) :
    s.fetchWord.toNat = (s.mem.read s.pc.toNat).toNat * 256 + (s.mem.read (s.pc.toNat + 1)).toNat :=
  toNat_wordOfBytes _ _

end Sys2Proof.Machine

namespace Sys2Proof.Proofs
open Sys2Proof.Machine

/-- Settles O7: each field is a quotient or a remainder of the word `256 * hi + lo`, and `lo` is a byte. -/
theorem fetchIsBigEndian : Obligations.FetchIsBigEndian := by
  intro s
  have hword := s.toNat_fetchWord
  have hlo : (s.mem.read (s.pc.toNat + 1)).toNat < 256 := BitVec.isLt _
  refine ⟨hword, ?opClass, ?x, ?y, ?n, ?nn⟩
  case opClass => rw [toNat_classOf]; omega
  case x => rw [val_xOf]; omega
  case y => rw [val_yOf]; omega
  case n => rw [toNat_nOf]; omega
  case nn => exact (nnOf_eq_iff _ _).2 (by omega)

end Sys2Proof.Proofs
end

section
/-! SUPPORT. The opcode map cut by opcode class: the rows that can match a word are those of its class, in the map's order
(30_encoding.md R75, R76), and within a class a row is recognised by a secondary field of the word. The masks are written
`#16`, as simp leaves a literal. -/

namespace Sys2Proof

/-- The rows of the map whose pattern has opcode class `c`, in the order of the map. -/
def rowsOfClass (c : Nat) : List OpcodeRow := opcodeMap.filter fun r => r.pattern.toNat / 4096 == c

/-- The instruction of the first of some rows that `w` matches. -/
def firstMatch (w : Word) (rows : List OpcodeRow) : Option Instr :=
  (rows.find? fun r => w &&& r.mask == r.pattern).map fun r => r.build w

theorem decodeByMap_eq_firstMatch (w : Word) : decodeByMap w = firstMatch w opcodeMap := rfl

@[simp] theorem firstMatch_cons (w : Word) (r : OpcodeRow) (rows : List OpcodeRow) :
    firstMatch w (r :: rows) = if w &&& r.mask = r.pattern then some (r.build w) else firstMatch w rows := by
  by_cases h : w &&& r.mask = r.pattern <;> simp [firstMatch, h]

/-- Every mask covers the opcode class. -/
theorem opcodeMap_masks_cover_class : ∀ r ∈ opcodeMap, r.mask &&& 0xF000 = 0xF000 := by decide

/-- A word matches only rows of its own class. -/
theorem class_of_row_match {w : Word} {r : OpcodeRow} (hr : r ∈ opcodeMap) (h : w &&& r.mask = r.pattern) :
    r.pattern.toNat / 4096 = w.toNat / 4096 := by
  have hclass : w &&& 0xF000 = r.pattern &&& 0xF000 := by
    rw [← h, BitVec.and_assoc, opcodeMap_masks_cover_class r hr]
  have hnat := congrArg BitVec.toNat hclass
  rw [toNat_and_F000, toNat_and_F000] at hnat
  omega

/-- First level of the dispatch: of the map only the rows of the word's class need be tried. -/
theorem decodeByMap_of_class {w : Word} {c : Nat} {rows : List OpcodeRow} (hc : w.toNat / 4096 = c)
    (hrows : rowsOfClass c = rows) : decodeByMap w = firstMatch w rows := by
  subst hc hrows
  rw [decodeByMap_eq_firstMatch, firstMatch, firstMatch, rowsOfClass, List.find?_filter]
  congr 1
  apply List.find?_congr
  intro r hr
  by_cases h : w &&& r.mask = r.pattern
  · simp [h, class_of_row_match hr h]
  · simp [h]

/-- A row of mask F000 is recognised by the class alone. -/
theorem and_F000_eq_iff {w p : Word} (hp : p.toNat % 4096 = 0) :
    w &&& 0xF000#16 = p ↔ w.toNat / 4096 = p.toNat / 4096 := by
  have h : (w &&& 0xF000#16).toNat = w.toNat / 4096 * 4096 := toNat_and_F000 w
  rw [BitVec.toNat_eq, h]
  omega

/-- Within a class, a row of mask F00F is recognised by the low nibble. -/
theorem and_F00F_eq_iff {w p : Word} (hc : w.toNat / 4096 = p.toNat / 4096) (hp : p.toNat / 16 % 256 = 0) :
    w &&& 0xF00F#16 = p ↔ w.toNat % 16 = p.toNat % 16 := by
  have h : (w &&& 0xF00F#16).toNat = w.toNat / 4096 * 4096 + w.toNat % 16 := toNat_and_F00F w
  rw [BitVec.toNat_eq, h]
  omega

/-- Within a class, a row of mask F0FF is recognised by the low byte. -/
theorem and_F0FF_eq_iff {w p : Word} (hc : w.toNat / 4096 = p.toNat / 4096) (hp : p.toNat / 256 % 16 = 0) :
    w &&& 0xF0FF#16 = p ↔ w.toNat % 256 = p.toNat % 256 := by
  have h : (w &&& 0xF0FF#16).toNat = w.toNat / 4096 * 4096 + w.toNat % 256 := toNat_and_F0FF w
  rw [BitVec.toNat_eq, h]
  omega

/-- Within a class, a row of mask FFFF is recognised by the low twelve bits. -/
theorem and_FFFF_eq_iff {w p : Word} (hc : w.toNat / 4096 = p.toNat / 4096) :
    w &&& 0xFFFF#16 = p ↔ w.toNat % 4096 = p.toNat % 4096 := by
  have h : w &&& 0xFFFF#16 = w := and_FFFF w
  rw [h, BitVec.toNat_eq]
  omega

/-- A class of one row has no secondary field. -/
theorem decodeByMap_of_single_row {w : Word} {c : Nat} {r : OpcodeRow} {i : Instr} (hc : w.toNat / 4096 = c)
    (hrows : rowsOfClass c = [r]) (hm : r.mask = 0xF000) (hp : r.pattern.toNat = c * 4096) (hi : r.build w = i) :
    decodeByMap w = some i := by
  have hmatch : w &&& r.mask = r.pattern := hm ▸ (and_F000_eq_iff (by omega)).2 (by omega)
  rw [decodeByMap_of_class hc hrows, firstMatch_cons, if_pos hmatch, hi]

/-- Class 0: the rows of `00E0` and `00EE` are tried before the row of `0nnn`, which every word of the class matches. -/
theorem decodeByMap_class0 {w : Word} (hc : w.toNat / 4096 = 0) : decodeByMap w = some (decodeClass0 w) := by
  rw [decodeByMap_of_class (rows := opcodeRowsA.take 3) hc rfl]
  simp only [opcodeRowsA, List.take, firstMatch_cons, BitVec.ofNat_eq_ofNat, BitVec.toNat_ofNat, hc,
    and_FFFF_eq_iff, and_F000_eq_iff, decodeClass0, nnnOf_eq_iff]
  split_ifs <;> rfl

/-- Class 8: the low nibble selects the row. -/
theorem decodeByMap_class8 {w : Word} (hc : w.toNat / 4096 = 8) : decodeByMap w = some (decodeClass8 w) := by
  rw [decodeByMap_of_class (rows := opcodeRowsB ++ opcodeRowsE) hc rfl, decodeClass8, toNat_nOf]
  simp only [opcodeRowsB, opcodeRowsE, List.cons_append, List.nil_append, firstMatch_cons,
    BitVec.ofNat_eq_ofNat, BitVec.toNat_ofNat, hc, and_F00F_eq_iff]
  have hn : w.toNat % 16 < 16 := by omega
  generalize w.toNat % 16 = n at hn ⊢
  interval_cases n <;> rfl

/-- Class E: the low byte selects the row, or there is none. -/
theorem decodeByMap_classE {w : Word} (hc : w.toNat / 4096 = 14) : decodeByMap w = (decodeClassE w).toOption := by
  rw [decodeByMap_of_class (rows := opcodeRowsC.drop 5) hc rfl]
  simp only [opcodeRowsC, List.drop, firstMatch_cons, BitVec.ofNat_eq_ofNat, BitVec.toNat_ofNat, hc,
    and_F0FF_eq_iff, decodeClassE, nnOf_eq_iff, apply_ite Except.toOption]
  rfl

/-- Class F: the low byte selects the row, or there is none. -/
theorem decodeByMap_classF {w : Word} (hc : w.toNat / 4096 = 15) : decodeByMap w = (decodeClassF w).toOption := by
  rw [decodeByMap_of_class (rows := opcodeRowsD) hc rfl]
  simp only [opcodeRowsD, firstMatch_cons, BitVec.ofNat_eq_ofNat, BitVec.toNat_ofNat, hc,
    and_F0FF_eq_iff, decodeClassF, nnOf_eq_iff, apply_ite Except.toOption]
  rfl

end Sys2Proof
end

section
/-! PROOFS. The statement of 30_encoding.md on the opcode map. -/

namespace Sys2Proof.Proofs

/-- Settles O3: the rows that a word can match are those of its class. Four classes have a secondary field, each of the
other twelve has one row. -/
theorem dispatchIsTheOpcodeMap : Obligations.DispatchIsTheOpcodeMap := by
  intro w
  have hclass : w.toNat / 4096 = 0 ∨ w.toNat / 4096 = 8 ∨ w.toNat / 4096 = 14 ∨ w.toNat / 4096 = 15 ∨
      (1 ≤ w.toNat / 4096 ∧ w.toNat / 4096 ≤ 7) ∨ (9 ≤ w.toNat / 4096 ∧ w.toNat / 4096 ≤ 13) := by omega
  rw [decodeWord, toNat_classOf]
  obtain hc | hc | hc | hc | ⟨hlow, hhigh⟩ | ⟨hlow, hhigh⟩ := hclass
  · rw [hc]; exact decodeByMap_class0 hc
  · rw [hc]; exact decodeByMap_class8 hc
  · rw [hc]; exact decodeByMap_classE hc
  · rw [hc]; exact decodeByMap_classF hc
  · interval_cases hc : w.toNat / 4096 <;> exact decodeByMap_of_single_row hc rfl rfl rfl rfl
  · interval_cases hc : w.toNat / 4096 <;> exact decodeByMap_of_single_row hc rfl rfl rfl rfl

end Sys2Proof.Proofs
end

section
/-! SUPPORT. The control flow of 40_control_flow.md: which words decode to SYS, and the outcome of each instruction that
writes `pc` explicitly, one rule per outcome. -/

namespace Sys2Proof

/-- The class that the first level of the dispatch sees, for a word matched under the mask F000. -/
theorem toNat_classOf_of_and_F000 {w p : Word} (h : w &&& 0xF000 = p) : (classOf w).toNat = p.toNat / 4096 :=
  (toNat_classOf w).trans (class_of_and_F000 h)

/-- In class 0 the address is the whole word. -/
theorem nnnOf_ne_of_class0 {w : Word} {nnn : Addr} (hc : w.toNat / 4096 = 0) (h : w ≠ nnn.setWidth 16) :
    nnnOf w ≠ nnn := by
  rintro rfl
  refine h (BitVec.eq_of_toNat_eq ?_)
  rw [BitVec.toNat_setWidth, toNat_nnnOf]
  omega

/-- Of class 0 only the words 00E0 and 00EE are no SYS (30_encoding.md R80). -/
theorem decodeClass0_eq_sys {w : Word} (hc : w.toNat / 4096 = 0) (hcls : w ≠ 0x00E0) (hret : w ≠ 0x00EE) :
    decodeClass0 w = .sys (nnnOf w) := by
  have hcls' : nnnOf w ≠ 0x0E0 := nnnOf_ne_of_class0 hc hcls
  have hret' : nnnOf w ≠ 0x0EE := nnnOf_ne_of_class0 hc hret
  rw [decodeClass0, if_neg hcls', if_neg hret']

end Sys2Proof

namespace Sys2Proof.Machine

theorem exec_sys (nnn : Addr) (s : State) : exec (.sys nnn) s = .next (s.setPc (addressOperand nnn)) := rfl

theorem exec_jp (nnn : Addr) (s : State) : exec (.jp nnn) s = .next (s.setPc (addressOperand nnn)) := rfl

theorem exec_jpV0 (nnn : Addr) (s : State) :
    exec (.jpV0 nnn) s = .next (s.setPc ((s.reg 0).setWidth 16 + addressOperand nnn)) := rfl

/-- CALL below the last entry of the stack. -/
theorem exec_call_of_lt {s : State} (nnn : Addr) (h : s.sp + 1 < s.stack.length) :
    exec (.call nnn) s = .next ((s.pushReturn (s.pc + 2)).setPc (addressOperand nnn)) := if_pos h

/-- CALL at the last entry of the stack. -/
theorem exec_call_of_eq {s : State} (nnn : Addr) (h : s.sp + 1 = s.stack.length) :
    exec (.call nnn) s = .fault (.stackOverflow s.pc (encodeWord (.call nnn))) := if_neg (by omega)

/-- RET with an entry at a `sp` that is not 0. -/
theorem exec_ret_of_entry {s : State} {a : Word} (h0 : s.sp ≠ 0) (ha : s.stack[s.sp]? = some a) :
    exec .ret s = .next (s.popReturn a) := by
  show execRet s = _
  rw [execRet, if_neg h0, ha]

/-- RET on the empty stack. -/
theorem exec_ret_of_empty {s : State} (h0 : s.sp = 0) :
    exec .ret s = .fault (.stackUnderflow s.pc (encodeWord .ret)) := if_pos h0

/-- A byte plus a 12-bit address is at most 0x10FE, so the 16-bit sum of R104 does not wrap. -/
theorem toNat_byte_add_addressOperand (b : Byte) (nnn : Addr) :
    (b.setWidth 16 + addressOperand nnn).toNat = b.toNat + nnn.toNat := by
  have hb := b.isLt
  have hnnn := nnn.isLt
  rw [BitVec.toNat_add, toNat_addressOperand, BitVec.toNat_setWidth]
  omega

/-- From a `pc` that can be fetched from, the advance by one width does not wrap. -/
theorem toNat_pc_add_two {pc : Word} (h : pc.toNat ≤ 0xFFE) : (pc + 2).toNat = pc.toNat + 2 := by
  bv_omega

end Sys2Proof.Machine
end

section
/-! PROOFS. The statements of 40_control_flow.md. -/

namespace Sys2Proof.Proofs
open Sys2Proof.Machine

/-- Settles O18: SYS is what class 0 leaves after its two words, JP is all of class 1; both only write `pc`. -/
theorem jumpsSetPc : Obligations.JumpsSetPc := by
  refine ⟨?decodeSys, ?decodeJp, ?execSys, ?execJp⟩
  case decodeSys =>
    intro w h hcls hret
    rw [decodeWord, toNat_classOf_of_and_F000 h]
    exact congrArg Except.ok (decodeClass0_eq_sys (class_of_and_F000 h) hcls hret)
  case decodeJp =>
    intro w h
    rw [decodeWord, toNat_classOf_of_and_F000 h]
    rfl
  case execSys => exact fun nnn s => ⟨_, exec_sys nnn s, toNat_addressOperand nnn, rfl, rfl, State.reg_setPc s _ 15⟩
  case execJp => exact fun nnn s => ⟨_, exec_jp nnn s, toNat_addressOperand nnn, State.reg_setPc s _ 15⟩

/-- Settles O19: the sum of a byte and a 12-bit address fits in 16 bits. -/
theorem jumpV0AddsV0ToTheTarget : Obligations.JumpV0AddsV0ToTheTarget := by
  refine ⟨fun w h => ?decode, fun nnn s => ?exec⟩
  case decode =>
    rw [decodeWord, toNat_classOf_of_and_F000 h]
    rfl
  case exec => exact ⟨_, exec_jpV0 nnn s, toNat_byte_add_addressOperand (s.reg 0) nnn, State.reg_setPc s _ 15⟩

/-- Settles O20: the push writes only the entry above `sp`, which is not entry 0. -/
theorem callPushesTheReturnAddress : Obligations.CallPushesTheReturnAddress := by
  refine ⟨fun w h => ?decode, fun nnn s => ⟨fun hlt => ?push, fun hfull => ?overflow⟩⟩
  case decode =>
    rw [decodeWord, toNat_classOf_of_and_F000 h]
    rfl
  case push =>
    have hnew : (s.pushReturn (s.pc + 2)).stack[s.sp + 1]? = some (s.pc + 2) := List.getElem?_set_self hlt
    have hbottom : (s.pushReturn (s.pc + 2)).stack[0]? = s.stack[0]? := List.getElem?_set_ne (Nat.succ_ne_zero s.sp)
    exact ⟨_, exec_call_of_lt nnn hlt, rfl, hnew, toNat_pc_add_two, toNat_addressOperand nnn, hbottom,
      State.reg_pushReturn s (s.pc + 2) 15⟩
  case overflow => exact ⟨_, _, exec_call_of_eq nnn hfull⟩

/-- Settles O21: inside the stack `sp` names an entry, and RET leaves the entries as they are. -/
theorem returnPopsTheReturnAddress : Obligations.ReturnPopsTheReturnAddress := by
  refine ⟨fun w h => ?decode, fun s => ⟨fun h0 hlt => ?pop, fun h0 => ?underflow⟩⟩
  case decode =>
    rw [and_FFFF] at h
    rw [h]
    rfl
  case pop =>
    have hentry : s.stack[s.sp]? = some s.stack[s.sp] := List.getElem?_eq_getElem hlt
    exact ⟨_, _, exec_ret_of_entry h0 hentry, hentry, rfl, rfl, rfl, State.reg_popReturn s _ 15⟩
  case underflow => exact ⟨_, _, exec_ret_of_empty h0⟩

end Sys2Proof.Proofs
end

section
/-! SUPPORT. The register-compare skips of 41_skips.md: what ending an instruction with `skip` or `next` does (00_scope.md
R7, R11), and the condition of each skip with an immediate. -/

namespace Sys2Proof.Machine

theorem retireSkipping_true (s : State) : retireSkipping true s = .next s.skip := rfl

theorem retireSkipping_false (s : State) : retireSkipping false s = .next s.advance := rfl

/-- A conditional skip completes in every state, its condition alone selects the advance, and no register changes. -/
theorem retireSkipping_completes (c : Bool) (s : State) : ∃ t, retireSkipping c s = .next t ∧
    (c = true → t.pc = s.pc + 4) ∧ (c = false → t.pc = s.pc + 2) ∧ ∀ k, t.reg k = s.reg k := by
  cases c with
  | true => exact ⟨s.skip, retireSkipping_true s, fun _ => State.skip_pc s, nofun, State.reg_skip s⟩
  | false => exact ⟨s.advance, retireSkipping_false s, nofun, fun _ => State.advance_pc s, State.reg_advance s⟩

theorem exec_seImm (x : Reg) (nn : Byte) (s : State) :
    exec (.seImm x nn) s = retireSkipping (s.reg x == nn) s := rfl

theorem exec_sneImm (x : Reg) (nn : Byte) (s : State) :
    exec (.sneImm x nn) s = retireSkipping (s.reg x != nn) s := rfl

end Sys2Proof.Machine
end

section
/-! PROOFS. The statements of 41_skips.md. -/

namespace Sys2Proof.Proofs
open Sys2Proof.Machine

/-- Settles O23: SE and SNE are all of classes 3 and 4, and each is a conditional skip on its comparison. -/
theorem skipsCompareWithTheImmediate : Obligations.SkipsCompareWithTheImmediate := by
  refine ⟨?decodeSe, ?decodeSne, ?execSe, ?execSne⟩
  case decodeSe | decodeSne =>
    intro w h
    rw [decodeWord, toNat_classOf_of_and_F000 h]
    rfl
  case execSe =>
    intro x nn s
    obtain ⟨t, hnext, hskip, hadvance, hreg⟩ := retireSkipping_completes (s.reg x == nn) s
    exact ⟨t, (exec_seImm x nn s).trans hnext, fun heq => hskip (beq_iff_eq.2 heq),
      fun hne => hadvance (beq_eq_false_iff_ne.2 hne), hreg 15⟩
  case execSne =>
    intro x nn s
    obtain ⟨t, hnext, hskip, hadvance, hreg⟩ := retireSkipping_completes (s.reg x != nn) s
    exact ⟨t, (exec_sneImm x nn s).trans hnext, fun hne => hskip (bne_iff_ne.2 hne),
      fun heq => hadvance (bne_eq_false_iff_eq.2 heq), hreg 15⟩

end Sys2Proof.Proofs
end

section
/-! SUPPORT. The register load, arithmetic and no-ops of 42_alu.md: which word a class 8 word decodes to, what a retired
register write leaves, and the frame of the bare advance (00_scope.md R8, R11). -/

namespace Sys2Proof.Machine

/-- A class 8 word is dispatched by its low nibble, whatever `x` and `y` (30_encoding.md R75). -/
theorem decodesAs_of_class8 {p : Word} {build : Word → Instr} (hp : p.toNat / 4096 = 8)
    (hbuild : ∀ w, (nOf w).toNat = p.toNat % 16 → decodeClass8 w = build w) : DecodesAs 0xF00F p build := by
  intro w h
  obtain ⟨hclass, hnibble⟩ := fields_of_and_F00F h
  rw [decodeWord, toNat_classOf, hclass, hp]
  exact congrArg Except.ok (hbuild w ((toNat_nOf w).trans hnibble))

/-- A register write that retires completes; VF changes only as its destination. -/
theorem retire_setReg_completes (s : State) (x : Reg) (b : Byte) : ∃ t, retire (s.setReg x b) = .next t ∧
    t.reg x = b ∧ t.pc = s.pc + 2 ∧ (x ≠ 15 → t.reg 15 = s.reg 15) := by
  refine ⟨(s.setReg x b).advance, rfl, ?result, rfl, fun hx => ?flag⟩
  case result => rw [State.reg_advance, State.reg_setReg, if_pos rfl]
  case flag => rw [State.reg_advance, State.reg_setReg, if_neg hx.symm]

theorem exec_ldImm (x : Reg) (nn : Byte) (s : State) : exec (.ldImm x nn) s = retire (s.setReg x nn) := rfl

theorem exec_addImm (x : Reg) (nn : Byte) (s : State) :
    exec (.addImm x nn) s = retire (s.setReg x (s.reg x + nn)) := rfl

theorem onlyChanges_advance (s : State) : OnlyChanges s s.advance (fun e => e = .pc) := by
  intro e hpc
  cases e with
  | pc => exact absurd rfl hpc
  | _ => rfl

/-- What makes a class 8 row a no-op: its nibble alone selects the instruction, and that does nothing but retire
(42_alu.md R141). -/
theorem noOp_of_class8 {p : Word} {i : Instr} (hp : p.toNat / 4096 = 8)
    (hdecode : ∀ w, (nOf w).toNat = p.toNat % 16 → decodeClass8 w = i) (hexec : ∀ s, exec i s = retire s) :
    DecodesAs 0xF00F p (fun _ => i) ∧
    ∀ s : State, ∃ t, exec i s = .next t ∧ t.pc = s.pc + 2 ∧ OnlyChanges s t (fun e => e = .pc) :=
  ⟨decodesAs_of_class8 hp hdecode, fun s => ⟨s.advance, hexec s, State.advance_pc s, onlyChanges_advance s⟩⟩

end Sys2Proof.Machine
end

section
/-! PROOFS. The statements of 42_alu.md on the immediate forms and the no-ops. -/

namespace Sys2Proof.Proofs
open Sys2Proof.Machine

/-- Settles O25: both are a retired register write, of the immediate and of the 8-bit sum. -/
theorem immediateLoadAndAdd : Obligations.ImmediateLoadAndAdd := by
  refine ⟨?decodeLd, ?decodeAdd, ?execLd, ?execAdd⟩
  case decodeLd | decodeAdd =>
    intro w h
    rw [decodeWord, toNat_classOf_of_and_F000 h]
    rfl
  case execLd => exact fun x nn s => exec_ldImm x nn s ▸ retire_setReg_completes s x nn
  case execAdd =>
    intro x nn s
    obtain ⟨t, hnext, hresult, hpc, hflag⟩ := retire_setReg_completes s x (s.reg x + nn)
    have hsum : (t.reg x).toNat = ((s.reg x).toNat + nn.toNat) % 256 := by rw [hresult, BitVec.toNat_add]
    exact ⟨t, (exec_addImm x nn s).trans hnext, hsum, hpc, hflag⟩

/-- Settles O31: each of the seven low nibbles selects its own no-op, and each no-op only retires. -/
theorem aluNoOpsOnlyAdvance : Obligations.AluNoOpsOnlyAdvance := by
  intro p hp
  simp only [List.mem_cons, List.not_mem_nil, or_false] at hp
  obtain rfl | rfl | rfl | rfl | rfl | rfl | rfl := hp <;>
    exact noOp_of_class8 rfl (fun w hn => by rw [decodeClass8, hn]; rfl) (fun _ => rfl)

end Sys2Proof.Proofs
end

section
/-! SUPPORT. The index loads of 43_index_memory.md: which word a class F word decodes to, what a retired write of `I`
leaves, and that the product of R162 fits 16 bits. -/

namespace Sys2Proof.Machine

/-- A class F word is dispatched by its low byte, whatever `x` (30_encoding.md R75). -/
theorem decodesAs_of_classF {p : Word} {build : Word → Instr} (hp : p.toNat / 4096 = 15)
    (hbuild : ∀ w, nnOf w = nnOf p → decodeClassF w = .ok (build w)) : DecodesAs 0xF0FF p build := by
  intro w h
  obtain ⟨hclass, hbyte⟩ := fields_of_and_F0FF h
  rw [decodeWord, toNat_classOf, hclass, hp]
  exact hbuild w ((nnOf_eq_iff w _).2 (hbyte.trans (toNat_nnOf p).symm))

/-- A write of `I` that retires completes and leaves every register, VF among them. -/
theorem retire_setI_completes (s : State) (a : Word) : ∃ t, retire (s.setI a) = .next t ∧
    t.i = a ∧ t.pc = s.pc + 2 ∧ ∀ k, t.reg k = s.reg k :=
  ⟨(s.setI a).advance, rfl, rfl, rfl, fun k => (State.reg_advance _ k).trans (State.reg_setI s a k)⟩

theorem exec_ldI (nnn : Addr) (s : State) : exec (.ldI nnn) s = retire (s.setI (addressOperand nnn)) := rfl

theorem exec_ldFont (x : Reg) (s : State) :
    exec (.ldFont x) s = retire (s.setI (5 * (s.reg x).setWidth 16)) := rfl

/-- Five times a byte is at most 0x4FB, so the 16-bit product of R162 does not wrap. -/
theorem toNat_five_mul_byte (b : Byte) : (5 * b.setWidth 16 : Word).toNat = 5 * b.toNat := by
  have hb := b.isLt
  rw [BitVec.toNat_mul, BitVec.toNat_setWidth, show (5 : Word).toNat = 5 from rfl]
  omega

end Sys2Proof.Machine
end

section
/-! PROOFS. The statements of 43_index_memory.md that load `I`. -/

namespace Sys2Proof.Proofs
open Sys2Proof.Machine

/-- Settles O33: class A is all of LD I, a retired write of `I` whose value has 12 bits. -/
theorem loadIndexTakesTheAddress : Obligations.LoadIndexTakesTheAddress := by
  refine ⟨?decode, ?exec⟩
  case decode =>
    intro w h
    rw [decodeWord, toNat_classOf_of_and_F000 h]
    rfl
  case exec =>
    intro nnn s
    obtain ⟨t, hnext, hi, hpc, hreg⟩ := retire_setI_completes s (addressOperand nnn)
    have haddress : t.i.toNat = nnn.toNat := by rw [hi, toNat_addressOperand]
    have hrange : t.i.toNat ≤ 0xFFF := haddress ▸ Nat.le_of_lt_succ nnn.isLt
    exact ⟨t, (exec_ldI nnn s).trans hnext, haddress, hrange, hpc, hreg 15⟩

/-- Settles O35: the low byte 29 alone selects LD F, a retired write of `I` whose product does not wrap. -/
theorem fontAddressIsFiveTimesTheByte : Obligations.FontAddressIsFiveTimesTheByte := by
  refine ⟨?decode, ?exec⟩
  case decode => exact decodesAs_of_classF rfl fun w hbyte => by rw [decodeClassF, hbyte]; rfl
  case exec =>
    intro x s
    obtain ⟨t, hnext, hi, hpc, hreg⟩ := retire_setI_completes s (5 * (s.reg x).setWidth 16)
    have hproduct : t.i.toNat = 5 * (s.reg x).toNat := by rw [hi, toNat_five_mul_byte]
    exact ⟨t, (exec_ldFont x s).trans hnext, hproduct, hpc, hreg 15⟩

end Sys2Proof.Proofs
end

section
/-! SUPPORT. The screen clear of 44_display.md R180: what a retired write of the framebuffer leaves. -/

namespace Sys2Proof.Machine

theorem exec_cls (s : State) : exec .cls s = retire (s.setFb blankFramebuffer) := rfl

/-- A write of the framebuffer that retires completes and leaves every register, VF among them. -/
theorem retire_setFb_completes (s : State) (f : Framebuffer) : ∃ t, retire (s.setFb f) = .next t ∧
    t.fb = f ∧ t.pc = s.pc + 2 ∧ ∀ k, t.reg k = s.reg k :=
  ⟨(s.setFb f).advance, rfl, rfl, rfl, fun k => (State.reg_advance _ k).trans (State.reg_setFb s f k)⟩

end Sys2Proof.Machine
end

section
/-! PROOFS. The statement of 44_display.md on the screen clear. -/

namespace Sys2Proof.Proofs
open Sys2Proof.Machine

/-- Settles O42: CLS is the one word 00E0, a retired write of the blank framebuffer. -/
theorem clearBlanksEveryPixel : Obligations.ClearBlanksEveryPixel := by
  refine ⟨?decode, ?exec⟩
  case decode =>
    intro w h
    rw [and_FFFF] at h
    rw [h]
    rfl
  case exec =>
    intro s
    obtain ⟨t, hnext, hfb, hpc, hreg⟩ := retire_setFb_completes s blankFramebuffer
    have hpixels : ∀ r c, Framebuffer.pixel t.fb r c = false := hfb ▸ Framebuffer.pixel_blankFramebuffer
    exact ⟨t, (exec_cls s).trans hnext, hpixels, hpc, hreg 15⟩

end Sys2Proof.Proofs
end

section
/-! SUPPORT. The timer transfers, `Tick` and `KeyWrite` of 45_timers_keypad.md: what a retired write of a timer leaves
(R201, R202), what one count does at 0 (R206), and the key flags and the frames of the two events (R206, R207). -/

namespace Sys2Proof.Machine

theorem exec_ldFromDt (x : Reg) (s : State) : exec (.ldFromDt x) s = retire (s.setReg x s.dt) := rfl

theorem exec_ldToDt (x : Reg) (s : State) : exec (.ldToDt x) s = retire (s.setDt (s.reg x)) := rfl

theorem exec_ldToSt (x : Reg) (s : State) : exec (.ldToSt x) s = retire (s.setSt (s.reg x)) := rfl

/-- A write of `dt` that retires completes and leaves every register, VF among them. -/
theorem retire_setDt_completes (s : State) (b : Byte) : ∃ t, retire (s.setDt b) = .next t ∧
    t.dt = b ∧ t.pc = s.pc + 2 ∧ ∀ k, t.reg k = s.reg k :=
  ⟨(s.setDt b).advance, rfl, rfl, rfl, fun k => (State.reg_advance _ k).trans (State.reg_setDt s b k)⟩

/-- A write of `st` that retires completes and leaves every register, VF among them. -/
theorem retire_setSt_completes (s : State) (b : Byte) : ∃ t, retire (s.setSt b) = .next t ∧
    t.st = b ∧ t.pc = s.pc + 2 ∧ ∀ k, t.reg k = s.reg k :=
  ⟨(s.setSt b).advance, rfl, rfl, rfl, fun k => (State.reg_advance _ k).trans (State.reg_setSt s b k)⟩

theorem runEvent_tick (s : State) : runEvent .tick s = .next s.tick := rfl

theorem runEvent_keyWrite (s : State) (k : Key) (b : Bool) : runEvent (.keyWrite k b) s = .next (s.keyWrite k b) := rfl

theorem countDown_of_toNat_eq_zero {t : Byte} (h : t.toNat = 0) : countDown t = 0 :=
  if_pos (BitVec.eq_of_toNat_eq h)

theorem onlyChanges_tick (s : State) : OnlyChanges s s.tick (fun e => e = .dt ∨ e = .st) := by
  intro e hother
  cases e with
  | dt => exact absurd (.inl rfl) hother
  | st => exact absurd (.inr rfl) hother
  | _ => rfl

/-- Key flag read after a `KeyWrite`. -/
theorem State.getElem_key_keyWrite (s : State) (k j : Key) (b : Bool) :
    (s.keyWrite k b).key[j.val] = if j = k then b else s.key[j.val] := by
  simp only [State.keyWrite_key, Vector.getElem_set, Fin.ext_iff, eq_comm]

theorem onlyChanges_keyWrite (s : State) (k : Key) (b : Bool) :
    OnlyChanges s (s.keyWrite k b) (fun e => e = .key k) := by
  intro e hother
  cases e with
  | key j =>
    have hj : j ≠ k := fun heq => hother (congrArg Element.key heq)
    exact (s.getElem_key_keyWrite k j b).trans (if_neg hj)
  | _ => rfl

end Sys2Proof.Machine
end

section
/-! PROOFS. The statements of 45_timers_keypad.md on the timers and the key latch. -/

namespace Sys2Proof.Proofs
open Sys2Proof.Machine

/-- Settles O47: the low byte alone selects each transfer; one is a retired register write, two are retired timer
writes. -/
theorem timerTransfers : Obligations.TimerTransfers := by
  refine ⟨?decodeFromDt, ?decodeToDt, ?decodeToSt, fun x s => ⟨?execFromDt, ?execToDt, ?execToSt⟩⟩
  case decodeFromDt | decodeToDt | decodeToSt =>
    exact decodesAs_of_classF rfl fun w hbyte => by rw [decodeClassF, hbyte]; rfl
  case execFromDt =>
    obtain ⟨t, hnext, hresult, hpc, hflag⟩ := retire_setReg_completes s x s.dt
    have hdt : t.dt = s.dt := by rw [retire_next hnext, State.advance_dt, State.setReg_dt]
    exact ⟨t, (exec_ldFromDt x s).trans hnext, hresult, hdt, hpc, hflag⟩
  case execToDt =>
    obtain ⟨t, hnext, hdt, hpc, hreg⟩ := retire_setDt_completes s (s.reg x)
    exact ⟨t, (exec_ldToDt x s).trans hnext, hdt, hpc, hreg 15⟩
  case execToSt =>
    obtain ⟨t, hnext, hst, hpc, hreg⟩ := retire_setSt_completes s (s.reg x)
    exact ⟨t, (exec_ldToSt x s).trans hnext, hst, hpc, hreg 15⟩

/-- Settles O52: each timer takes one count, and a count at 0 stays there. -/
theorem tickCountsTheTimersDown : Obligations.TickCountsTheTimersDown := fun s =>
  ⟨s.tick, runEvent_tick s,
    fun _ => toNat_countDown s.dt, countDown_of_toNat_eq_zero,
    fun _ => toNat_countDown s.st, countDown_of_toNat_eq_zero,
    onlyChanges_tick s⟩

/-- Settles O53: the written flag reads as the value, every other flag as before. -/
theorem keyWriteSetsOneFlag : Obligations.KeyWriteSetsOneFlag := fun s k b =>
  ⟨s.keyWrite k b, runEvent_keyWrite s k b, (s.getElem_key_keyWrite k k b).trans (if_pos rfl),
    onlyChanges_keyWrite s k b⟩

end Sys2Proof.Proofs
end

section
/-! SUPPORT. The round trip of 30_encoding.md between instructions and words: the class of a word of each format, the word
that the fields of a word build again, and which low bytes of classes E and F are defined. -/

namespace Sys2Proof

@[simp] theorem classOf_formatNNN (c : Nibble) (nnn : Addr) : classOf (formatNNN c nnn) = c := by
  apply BitVec.eq_of_toNat_eq
  have := nnn.isLt
  rw [toNat_classOf, toNat_formatNNN]
  omega

@[simp] theorem classOf_formatXNN (c : Nibble) (x : Reg) (nn : Byte) : classOf (formatXNN c x nn) = c := by
  apply BitVec.eq_of_toNat_eq
  have := nn.isLt
  rw [toNat_classOf, toNat_formatXNN]
  omega

@[simp] theorem classOf_formatXYN (c : Nibble) (x y : Reg) (n : Nibble) : classOf (formatXYN c x y n) = c := by
  apply BitVec.eq_of_toNat_eq
  have := n.isLt
  rw [toNat_classOf, toNat_formatXYN]
  omega

theorem Instr.wf_sys_iff (nnn : Addr) : (Instr.sys nnn).wf = true ↔ nnn ≠ 0x0E0#12 ∧ nnn ≠ 0x0EE#12 := by
  simp [Instr.wf]

/-- Decode after encode on the word. The class of the format selects the arm of the first level and, where that has a
secondary field, the constant that the encoder emits there selects the instruction. SYS is well formed when its address
is none of the two that class 0 tries before it. -/
theorem decodeWord_encodeWord (i : Instr) (h : i.wf = true) : decodeWord (encodeWord i) = .ok i := by
  cases i with
  | cls | ret | alunop8 | alunop9 | alunopA | alunopB | alunopC | alunopD | alunopF => rfl
  | sys nnn =>
    obtain ⟨hcls, hret⟩ := (Instr.wf_sys_iff nnn).1 h
    simp [encodeWord, decodeWord, decodeClass0, hcls, hret]
  | jp | call | ldI | jpV0 | seImm | sneImm | ldImm | addImm | rnd | seReg | sneReg | drw =>
    simp [encodeWord, decodeWord]
  | ldReg | orReg | andReg | xorReg | addReg | subReg | shr | subn | shl =>
    simp [encodeWord, decodeWord, decodeClass8]
  | skp | sknp => simp [encodeWord, decodeWord, decodeClassE]
  | ldFromDt | ldKey | ldToDt | ldToSt | addI | ldFont | ldBcd | store | load =>
    simp [encodeWord, decodeWord, decodeClassF]

/-- The fields of a word of format NNN give the word back. -/
theorem formatNNN_fields {w : Word} {c : Nibble} {nnn : Addr} (hc : w.toNat / 4096 = c.toNat) (hnnn : nnnOf w = nnn) :
    formatNNN c nnn = w &&& 0xFFFF := by
  apply BitVec.eq_of_toNat_eq
  rw [and_FFFF, toNat_formatNNN, ← hnnn, toNat_nnnOf]
  omega

/-- The fields of a word of format XNN give the word back. -/
theorem formatXNN_fields {w : Word} {c : Nibble} {nn : Byte} (hc : w.toNat / 4096 = c.toNat) (hnn : nnOf w = nn) :
    formatXNN c (xOf w) nn = w &&& 0xFFFF := by
  apply BitVec.eq_of_toNat_eq
  rw [and_FFFF, toNat_formatXNN, val_xOf, ← hnn, toNat_nnOf]
  omega

/-- The fields of a word of format XYN give the word back. -/
theorem formatXYN_fields {w : Word} {c n : Nibble} (hc : w.toNat / 4096 = c.toNat) (hn : nOf w = n) :
    formatXYN c (xOf w) (yOf w) n = w &&& 0xFFFF := by
  apply BitVec.eq_of_toNat_eq
  rw [and_FFFF, toNat_formatXYN, val_xOf, val_yOf, ← hn, toNat_nOf]
  omega

/-- The fields of a class 5 or 9 word, whose low nibble is not decoded (30_encoding.md R77). -/
theorem formatXYN_fields_without_n {w : Word} {c : Nibble} (hc : w.toNat / 4096 = c.toNat) :
    formatXYN c (xOf w) (yOf w) 0 = w &&& 0xFFF0 := by
  apply BitVec.eq_of_toNat_eq
  rw [toNat_and_FFF0, toNat_formatXYN, val_xOf, val_yOf, show (0 : Nibble).toNat = 0 from rfl]
  omega

/-- The fields of a shift, whose second register is not decoded (30_encoding.md R77). -/
theorem formatXYN_fields_without_y {w : Word} {c n : Nibble} (hc : w.toNat / 4096 = c.toNat) (hn : nOf w = n) :
    formatXYN c (xOf w) 0 n = w &&& 0xFF0F := by
  apply BitVec.eq_of_toNat_eq
  rw [toNat_and_FF0F, toNat_formatXYN, val_xOf, ← hn, toNat_nOf, show (0 : Reg).val = 0 from rfl]
  omega

/-- The fields of an ALUNOP, whose two registers are not decoded (30_encoding.md R78). -/
theorem formatXYN_fields_without_xy {w : Word} {c n : Nibble} (hc : w.toNat / 4096 = c.toNat) (hn : nOf w = n) :
    formatXYN c 0 0 n = w &&& 0xF00F := by
  apply BitVec.eq_of_toNat_eq
  rw [toNat_and_F00F, toNat_formatXYN, ← hn, toNat_nOf, show (0 : Reg).val = 0 from rfl]
  omega

/-- `i` is well formed and encodes to the bits of `w` that the decoder reads for it. -/
def EncodesTo (i : Instr) (w : Word) : Prop := i.wf = true ∧ encodeWord i = w &&& decodedBits i

/-- Class 0: CLS and RET are the format's words of their address, SYS is what is left. -/
theorem encodesTo_of_class0 {w : Word} (hc : w.toNat / 4096 = 0) : EncodesTo (decodeClass0 w) w := by
  unfold decodeClass0
  split_ifs with hcls hret
  · exact ⟨rfl, formatNNN_fields (c := 0) hc hcls⟩
  · exact ⟨rfl, formatNNN_fields (c := 0) hc hret⟩
  · exact ⟨(Instr.wf_sys_iff _).2 ⟨hcls, hret⟩, formatNNN_fields hc rfl⟩

/-- Class 8, nibble by nibble: the two shifts leave `y` out, the seven no-ops `x` and `y`. -/
theorem encodesTo_of_class8 {w : Word} (hc : w.toNat / 4096 = 8) : EncodesTo (decodeClass8 w) w := by
  have hxyn {n : Nibble} := formatXYN_fields (c := 8) (n := n) hc
  have hshift {n : Nibble} := formatXYN_fields_without_y (c := 8) (n := n) hc
  have hnop {n : Nibble} := formatXYN_fields_without_xy (c := 8) (n := n) hc
  unfold decodeClass8
  generalize nOf w = n at *
  obtain ⟨k, hk⟩ := n
  interval_cases k
  -- the nibbles 0 to F in order
  exacts [⟨rfl, hxyn rfl⟩, ⟨rfl, hxyn rfl⟩, ⟨rfl, hxyn rfl⟩, ⟨rfl, hxyn rfl⟩, ⟨rfl, hxyn rfl⟩, ⟨rfl, hxyn rfl⟩,
    ⟨rfl, hshift rfl⟩, ⟨rfl, hxyn rfl⟩, ⟨rfl, hnop (n := 0x8) rfl⟩, ⟨rfl, hnop (n := 0x9) rfl⟩,
    ⟨rfl, hnop (n := 0xA) rfl⟩, ⟨rfl, hnop (n := 0xB) rfl⟩, ⟨rfl, hnop (n := 0xC) rfl⟩, ⟨rfl, hnop (n := 0xD) rfl⟩,
    ⟨rfl, hshift rfl⟩, ⟨rfl, hnop (n := 0xF) rfl⟩]

theorem encodesTo_of_classE {w : Word} {i : Instr} (hc : w.toNat / 4096 = 14) (h : decodeClassE w = .ok i) :
    EncodesTo i w := by
  unfold decodeClassE at h
  split_ifs at h <;> cases h <;> exact ⟨rfl, formatXNN_fields hc ‹_›⟩

theorem encodesTo_of_classF {w : Word} {i : Instr} (hc : w.toNat / 4096 = 15) (h : decodeClassF w = .ok i) :
    EncodesTo i w := by
  unfold decodeClassF at h
  split_ifs at h <;> cases h <;> exact ⟨rfl, formatXNN_fields hc ‹_›⟩

theorem decodeClassE_error_iff (w : Word) :
    (∃ e, decodeClassE w = .error e) ↔ w.toNat % 256 ∉ [0x9E, 0xA1] := by
  simp only [decodeClassE, nnOf_eq_iff]
  split_ifs <;> simp_all

theorem decodeClassF_error_iff (w : Word) :
    (∃ e, decodeClassF w = .error e) ↔ w.toNat % 256 ∉ [0x07, 0x0A, 0x15, 0x18, 0x1E, 0x29, 0x33, 0x55, 0x65] := by
  simp only [decodeClassF, nnOf_eq_iff]
  split_ifs <;> simp_all

/-- The opcode classes as the decoder treats them: four with a secondary field, twelve without. -/
theorem opcode_class_cases (w : Word) : w.toNat / 4096 = 0 ∨ w.toNat / 4096 = 8 ∨ w.toNat / 4096 = 14 ∨
    w.toNat / 4096 = 15 ∨ (1 ≤ w.toNat / 4096 ∧ w.toNat / 4096 ≤ 13 ∧ w.toNat / 4096 ≠ 8) := by omega

end Sys2Proof
end

section
/-! PROOFS. The statements of 30_encoding.md on the round trip, the words that are no instruction, and nine known words. -/

namespace Sys2Proof.Proofs

/-- Settles O1: the two bytes of the encoding are those of its word, and the word decodes back, constructor by
constructor. -/
theorem decodeAfterEncode : Obligations.DecodeAfterEncode := by
  intro i rest h
  rw [encode, List.cons_append, List.cons_append, List.nil_append, decode_cons_cons, wordOfBytes_high_low,
    decodeWord_encodeWord i h]
  rfl

/-- Settles O2: class by class, the fields that the decoder takes out of a word build its decoded bits again. -/
theorem encodeAfterDecode : Obligations.EncodeAfterDecode := by
  intro w i h
  show EncodesTo i w
  rw [decodeWord, toNat_classOf] at h
  obtain hc | hc | hc | hc | ⟨hlow, hhigh, hne⟩ := opcode_class_cases w
  · rw [hc] at h; cases h; exact encodesTo_of_class0 hc
  · rw [hc] at h; cases h; exact encodesTo_of_class8 hc
  · rw [hc] at h; exact encodesTo_of_classE hc h
  · rw [hc] at h; exact encodesTo_of_classF hc h
  · -- the classes 1 to D in order, 8 being excluded
    interval_cases hc : w.toNat / 4096 <;> cases h
    exacts [⟨rfl, formatNNN_fields hc rfl⟩, ⟨rfl, formatNNN_fields hc rfl⟩, ⟨rfl, formatXNN_fields hc rfl⟩,
      ⟨rfl, formatXNN_fields hc rfl⟩, ⟨rfl, formatXYN_fields_without_n hc⟩, ⟨rfl, formatXNN_fields hc rfl⟩,
      ⟨rfl, formatXNN_fields hc rfl⟩, absurd rfl hne, ⟨rfl, formatXYN_fields_without_n hc⟩,
      ⟨rfl, formatNNN_fields hc rfl⟩, ⟨rfl, formatNNN_fields hc rfl⟩, ⟨rfl, formatXNN_fields hc rfl⟩,
      ⟨rfl, formatXYN_fields hc rfl⟩]

/-- Settles O4: only classes E and F reject, each by its low byte. -/
theorem illegalWordsAreUndefinedLowBytes : Obligations.IllegalWordsAreUndefinedLowBytes := by
  intro w
  rw [decodeWord, toNat_classOf]
  obtain hc | hc | hc | hc | ⟨hlow, hhigh, hne⟩ := opcode_class_cases w
  · simp [hc]
  · simp [hc]
  · simp only [hc, decodeClassE_error_iff]; simp
  · simp only [hc, decodeClassF_error_iff]; simp
  · interval_cases w.toNat / 4096 <;> simp at hne ⊢

/-- Settles O5. -/
theorem knownWordsDecode : Obligations.KnownWordsDecode := ⟨rfl, rfl, rfl, rfl, rfl, rfl, rfl, rfl, rfl⟩

end Sys2Proof.Proofs
end

section
/-! SUPPORT. The frame, operation by operation (00_scope.md R8): `OnlyChanges` is reflexive and transitive, and each update of
the state adds the elements that it writes, so the frame of an instruction is the chain of its updates. -/

namespace Sys2Proof.Machine

theorem OnlyChanges.refl (s : State) (p : Element → Prop) : OnlyChanges s s p := by
  intro e _
  cases e <;> rfl

theorem OnlyChanges.mono {s t : State} {p q : Element → Prop} (h : OnlyChanges s t p) (hpq : ∀ e, p e → q e) :
    OnlyChanges s t q := fun e he => h e fun hp => he (hpq e hp)

theorem OnlyChanges.trans {s t u : State} {p : Element → Prop} (hst : OnlyChanges s t p) (htu : OnlyChanges t u p) :
    OnlyChanges s u p := by
  intro e he
  have h₁ := hst e he
  have h₂ := htu e he
  cases e <;> exact Eq.trans h₂ h₁

section
variable {s u : State} {p : Element → Prop}

theorem OnlyChanges.setPc (h : OnlyChanges s u p) (hpc : p .pc) (a : Word) : OnlyChanges s (u.setPc a) p :=
  h.trans fun e he => by
    cases e with
    | pc => exact absurd hpc he
    | _ => rfl

theorem OnlyChanges.advance (h : OnlyChanges s u p) (hpc : p .pc) : OnlyChanges s u.advance p := h.setPc hpc _

theorem OnlyChanges.skip (h : OnlyChanges s u p) (hpc : p .pc) : OnlyChanges s u.skip p := h.setPc hpc _

theorem OnlyChanges.setReg (h : OnlyChanges s u p) {x : Reg} (hx : p (.v x)) (b : Byte) :
    OnlyChanges s (u.setReg x b) p :=
  h.trans fun e he => by
    cases e with
    | v k =>
      have hk : k ≠ x := fun heq => he (heq ▸ hx)
      exact (State.reg_setReg u x k b).trans (if_neg hk)
    | _ => rfl

theorem OnlyChanges.setFlag (h : OnlyChanges s u p) (hvf : p (.v 15)) (f : Byte) : OnlyChanges s (u.setFlag f) p :=
  h.setReg hvf f

theorem OnlyChanges.setI (h : OnlyChanges s u p) (hi : p .i) (a : Word) : OnlyChanges s (u.setI a) p :=
  h.trans fun e he => by
    cases e with
    | i => exact absurd hi he
    | _ => rfl

theorem OnlyChanges.setDt (h : OnlyChanges s u p) (hdt : p .dt) (b : Byte) : OnlyChanges s (u.setDt b) p :=
  h.trans fun e he => by
    cases e with
    | dt => exact absurd hdt he
    | _ => rfl

theorem OnlyChanges.setSt (h : OnlyChanges s u p) (hst : p .st) (b : Byte) : OnlyChanges s (u.setSt b) p :=
  h.trans fun e he => by
    cases e with
    | st => exact absurd hst he
    | _ => rfl

/-- A new framebuffer changes the pixels in which it differs. -/
theorem OnlyChanges.setFb (h : OnlyChanges s u p) {f : Framebuffer}
    (hf : ∀ r c, Framebuffer.pixel f r c ≠ Framebuffer.pixel u.fb r c → p (.fb r c)) : OnlyChanges s (u.setFb f) p :=
  h.trans fun e he => by
    cases e with
    | fb r c => exact not_not.1 fun hne => he (hf r c hne)
    | _ => rfl

theorem OnlyChanges.pushReturn (h : OnlyChanges s u p) (hsp : p .sp) (hentry : p (.stack (u.sp + 1))) (a : Word) :
    OnlyChanges s (u.pushReturn a) p :=
  h.trans fun e he => by
    cases e with
    | sp => exact absurd hsp he
    | stack k =>
      have hk : u.sp + 1 ≠ k := fun heq => he (heq ▸ hentry)
      exact List.getElem?_set_ne hk
    | _ => rfl

theorem OnlyChanges.popReturn (h : OnlyChanges s u p) (hpc : p .pc) (hsp : p .sp) (a : Word) :
    OnlyChanges s (u.popReturn a) p :=
  h.trans fun e he => by
    cases e with
    | pc => exact absurd hpc he
    | sp => exact absurd hsp he
    | _ => rfl

theorem OnlyChanges.storeBlock (h : OnlyChanges s u p) {bytes : List Byte}
    (hmem : ∀ k, k < bytes.length → p (.mem (u.effectiveAddress k))) : OnlyChanges s (u.storeBlock bytes) p :=
  h.trans fun e he => by
    cases e with
    | mem a => exact State.read_storeBlock_outside u bytes a fun k hk heq => he (heq ▸ hmem k hk)
    | _ => rfl

theorem OnlyChanges.loadRegs (h : OnlyChanges s u p) {n : Nat} (hn : n ≤ 16) (hv : ∀ k : Reg, k.val < n → p (.v k)) :
    OnlyChanges s (u.loadRegs n) p := by
  induction n with
  | zero => exact h
  | succ n ih =>
    have hlast : p (.v (Fin.ofNat 16 n)) :=
      hv _ (by rw [Fin.val_ofNat, Nat.mod_eq_of_lt (by omega)]; omega)
    exact (ih (by omega) fun k hk => hv k (by omega)).setReg hlast _

theorem OnlyChanges.afterDraw (h : OnlyChanges s u p) (hin : p .rndIn) (hdraws : p .rndDraws) :
    OnlyChanges s u.afterDraw p :=
  h.trans fun e he => by
    cases e with
    | rndIn => exact absurd hin he
    | rndDraws => exact absurd hdraws he
    | v k => exact State.reg_afterDraw u k
    | _ => simp [Element.same]

end

/-- Both ends of a skip write `pc` alone. -/
theorem onlyChanges_of_retireSkipping {c : Bool} {s t : State} {p : Element → Prop} (h : retireSkipping c s = .next t)
    (hpc : p .pc) : OnlyChanges s t p := by
  cases c with
  | true => exact retireSkipping_next h ▸ (OnlyChanges.refl s p).skip hpc
  | false => exact retireSkipping_next h ▸ (OnlyChanges.refl s p).advance hpc

theorem execSkp_next {x : Reg} {s t : State} (h : execSkp x s = .next t) :
    ∃ down, s.keyNamed (s.reg x) = some down ∧ retireSkipping down s = .next t := by
  unfold execSkp raise at h
  split at h
  · exact ⟨_, ‹_›, h⟩
  · cases h

theorem execSknp_next {x : Reg} {s t : State} (h : execSknp x s = .next t) :
    ∃ down, s.keyNamed (s.reg x) = some down ∧ retireSkipping (!down) s = .next t := by
  unfold execSknp raise at h
  split at h
  · exact ⟨_, ‹_›, h⟩
  · cases h

/-- The key wait stores the first key that is down, or leaves the state alone. -/
theorem execLdKey_next {x : Reg} {s t : State} (h : execLdKey x s = .next t) :
    (∃ k, s.firstKeyDown = some k ∧ t = (s.setReg x (BitVec.ofNat 8 k.val)).advance) ∨
    (s.firstKeyDown = none ∧ t = s) := by
  unfold execLdKey at h
  split at h
  · exact .inl ⟨_, ‹_›, retire_next h⟩
  · exact .inr ⟨‹_›, (Host.Outcome.next.inj h).symm⟩

theorem execLdBcd_next {x : Reg} {s t : State} (h : execLdBcd x s = .next t) :
    s.i.toNat + 3 ≤ 0x1000 ∧ t = (s.storeBlock (bcdDigits (s.reg x))).advance := by
  obtain ⟨hgo, hrange⟩ := checkRange_next h
  exact ⟨by omega, retire_next hgo⟩

theorem execStore_next {x : Reg} {s t : State} (h : execStore x s = .next t) :
    s.i.toNat + (x.val + 1) ≤ 0x1000 ∧ t = (s.storeBlock (s.regBlock x)).advance := by
  obtain ⟨hgo, hrange⟩ := checkRange_next h
  exact ⟨by omega, retire_next hgo⟩

theorem execLoad_next {x : Reg} {s t : State} (h : execLoad x s = .next t) :
    s.i.toNat + (x.val + 1) ≤ 0x1000 ∧ t = (s.loadRegs (x.val + 1)).advance := by
  obtain ⟨hgo, hrange⟩ := checkRange_next h
  exact ⟨by omega, retire_next hgo⟩

theorem execDrw_next {x y : Reg} {n : Nibble} {s t : State} (h : execDrw x y n s = .next t) :
    (n.toNat = 0 ∨ s.i.toNat + n.toNat ≤ 0x1000) ∧ t = (s.commitDrawing (s.drawSprite x y n)).advance := by
  obtain ⟨hgo, hrange⟩ := checkRange_next h
  exact ⟨hrange, retire_next hgo⟩

/-- A draw XORs the sprite, as claims state it, into every pixel. -/
theorem State.pixel_drawSprite (s : State) (x y : Reg) (n : Nibble) (r : Fin 32) (c : Fin 64) :
    Framebuffer.pixel (s.drawSprite x y n).fb r c = (Framebuffer.pixel s.fb r c ^^ s.spritePixel x y n r c) := by
  rw [State.drawSprite, pixel_drawRows, State.spritePixel_eq]

/-- A sprite has no pixel outside its rectangle. -/
theorem State.spritePixel_inside {s : State} {x y : Reg} {n : Nibble} {r : Fin 32} {c : Fin 64}
    (h : s.spritePixel x y n r c = true) :
    (s.reg y).toNat % 32 ≤ r.val ∧ r.val < (s.reg y).toNat % 32 + n.toNat ∧
      (s.reg x).toNat % 64 ≤ c.val ∧ c.val < (s.reg x).toNat % 64 + 8 := by
  simp only [State.spritePixel, Bool.and_eq_true, decide_eq_true_eq] at h
  obtain ⟨⟨⟨hrow, hrow'⟩, hcol, hcol'⟩, -⟩ := h
  exact ⟨hrow, hrow', hcol, hcol'⟩

/-- A draw changes `pc`, VF and pixels of its sprite. -/
theorem onlyChanges_draw (s : State) (x y : Reg) (n : Nibble) :
    OnlyChanges s (s.commitDrawing (s.drawSprite x y n)).advance
      (fun e => e = .pc ∨ e = .v 15 ∨ ∃ r c, s.spritePixel x y n r c = true ∧ e = .fb r c) := by
  refine OnlyChanges.advance (OnlyChanges.setFb ((OnlyChanges.refl s _).setFlag (.inr (.inl rfl)) _) ?_) (.inl rfl)
  intro r c hne
  rw [State.pixel_drawSprite] at hne
  have hbit : s.spritePixel x y n r c = true := by
    by_contra hbit
    exact hne (by rw [Bool.eq_false_iff.2 hbit, Bool.xor_false]; rfl)
  exact .inr (.inr ⟨r, c, hbit, rfl⟩)

end Sys2Proof.Machine
end

section
/-! PROOFS. The frame rule of 00_scope.md R8. -/

namespace Sys2Proof.Proofs
open Sys2Proof.Machine

/-- Settles O17: each instruction is a chain of updates, and what each update writes is listed for the instruction. -/
theorem execChangesOnlyWhatItsRuleWrites : Obligations.ExecChangesOnlyWhatItsRuleWrites := by
  intro i s t h
  have hrefl := OnlyChanges.refl s (writes s i)
  cases i with
  | cls =>
    obtain rfl := retire_next h
    exact (hrefl.setFb fun r c _ => .inr ⟨r, c, rfl⟩).advance (.inl rfl)
  | ret =>
    obtain ⟨a, -, -, rfl⟩ := execRet_next h
    exact hrefl.popReturn (.inl rfl) (.inr rfl) a
  | sys | jp | jpV0 =>
    cases h
    exact hrefl.setPc rfl _
  | call =>
    obtain ⟨-, rfl⟩ := execCall_next h
    exact (hrefl.pushReturn (.inr (.inl rfl)) (.inr (.inr rfl)) _).setPc (.inl rfl) _
  | seImm | sneImm | seReg | sneReg => exact onlyChanges_of_retireSkipping h rfl
  | ldImm | addImm | ldReg | orReg | andReg | xorReg | ldFromDt =>
    obtain rfl := retire_next h
    exact (hrefl.setReg (.inr rfl) _).advance (.inl rfl)
  | addReg | subReg | shr | subn | shl =>
    obtain rfl := retire_next h
    exact ((hrefl.setFlag (.inr (.inr rfl)) _).setReg (.inr (.inl rfl)) _).advance (.inl rfl)
  | ldI | ldFont =>
    obtain rfl := retire_next h
    exact (hrefl.setI (.inr rfl) _).advance (.inl rfl)
  | addI =>
    obtain ⟨-, rfl⟩ := execAddI_next h
    exact (hrefl.setI (.inr rfl) _).advance (.inl rfl)
  | rnd =>
    obtain rfl := retire_next h
    exact ((hrefl.afterDraw (.inr (.inr (.inl rfl))) (.inr (.inr (.inr rfl)))).setReg (.inr (.inl rfl)) _).advance (.inl rfl)
  | drw x y n =>
    obtain ⟨-, rfl⟩ := execDrw_next h
    refine (onlyChanges_draw s x y n).mono fun e he => ?_
    obtain rfl | rfl | ⟨r, c, hbit, rfl⟩ := he
    · exact .inl rfl
    · exact .inr (.inl rfl)
    · exact .inr (.inr ⟨r, c, rfl, State.spritePixel_inside hbit⟩)
  | skp =>
    obtain ⟨down, -, h⟩ := execSkp_next h
    exact onlyChanges_of_retireSkipping h rfl
  | sknp =>
    obtain ⟨down, -, h⟩ := execSknp_next h
    exact onlyChanges_of_retireSkipping h rfl
  | ldKey =>
    obtain ⟨k, -, rfl⟩ | ⟨-, rfl⟩ := execLdKey_next h
    · exact (hrefl.setReg (.inr rfl) _).advance (.inl rfl)
    · exact hrefl
  | ldToDt =>
    obtain rfl := retire_next h
    exact (hrefl.setDt (.inr rfl) _).advance (.inl rfl)
  | ldToSt =>
    obtain rfl := retire_next h
    exact (hrefl.setSt (.inr rfl) _).advance (.inl rfl)
  | ldBcd x =>
    obtain ⟨-, rfl⟩ := execLdBcd_next h
    exact (hrefl.storeBlock (bytes := bcdDigits (s.reg x)) fun k hk => .inr ⟨k, hk, rfl⟩).advance (.inl rfl)
  | store x =>
    obtain ⟨-, rfl⟩ := execStore_next h
    exact (hrefl.storeBlock fun k hk => .inr ⟨k, s.length_regBlock x ▸ hk, rfl⟩).advance (.inl rfl)
  | load x =>
    obtain ⟨-, rfl⟩ := execLoad_next h
    exact (hrefl.loadRegs x.isLt fun k hk => .inr ⟨k, Nat.lt_succ_iff.1 hk, rfl⟩).advance (.inl rfl)
  | alunop8 | alunop9 | alunopA | alunopB | alunopC | alunopD | alunopF =>
    obtain rfl := retire_next h
    exact hrefl.advance rfl

end Sys2Proof.Proofs
end

section
/-! SUPPORT. The invariants of 10_state.md sections 4 to 6: which instructions write the stack, `sp`, `I`, the timers and the
keys (by the frame), what becomes of the memory and of `pc`, and the induction over the events of a step. -/

namespace Sys2Proof.Machine

section
variable (s : State) (i : Instr)

theorem not_writes_font : ¬ writes s i .font := by cases i <;> simp [writes]

theorem not_writes_key (k : Key) : ¬ writes s i (.key k) := by cases i <;> simp [writes]

theorem writes_dt_iff : writes s i .dt ↔ ∃ x, i = .ldToDt x := by cases i <;> simp [writes]

theorem writes_st_iff : writes s i .st ↔ ∃ x, i = .ldToSt x := by cases i <;> simp [writes]

theorem writes_sp_iff : writes s i .sp ↔ i = .ret ∨ ∃ nnn, i = .call nnn := by cases i <;> simp [writes]

theorem writes_stack_iff (k : Nat) : writes s i (.stack k) ↔ (∃ nnn, i = .call nnn) ∧ k = s.sp + 1 := by
  cases i <;> simp [writes]

theorem writes_i_iff :
    writes s i .i ↔ (∃ nnn, i = .ldI nnn) ∨ (∃ x, i = .addI x) ∨ ∃ x, i = .ldFont x := by
  cases i <;> simp [writes]

end

/-- A skip advances `pc` by one width or by two. -/
theorem retireSkipping_next_pc {c : Bool} {s t : State} (h : retireSkipping c s = .next t) :
    t.pc = s.pc + 2 ∨ t.pc = s.pc + 4 := by
  obtain rfl := retireSkipping_next h
  cases c with
  | true => exact .inr rfl
  | false => exact .inl rfl

theorem retireSkipping_next_mem {c : Bool} {s t : State} (h : retireSkipping c s = .next t) : t.mem = s.mem := by
  obtain rfl := retireSkipping_next h
  cases c <;> rfl

section
variable {i : Instr} {s t : State} (h : exec i s = .next t)
include h

/-- An element that an instruction does not write reads as before. -/
theorem same_of_exec_next {e : Element} (he : ¬ writes s i e) : e.same s t :=
  Proofs.execChangesOnlyWhatItsRuleWrites i s t h e he

/-- Only CALL writes the stack: the entry above `sp`, which is inside it. -/
theorem exec_next_stack : t.stack = s.stack ∨
    (s.sp + 1 < s.stack.length ∧ t.stack = s.stack.set (s.sp + 1) (s.pc + 2)) := by
  by_cases hcall : ∃ nnn, i = .call nnn
  · obtain ⟨nnn, rfl⟩ := hcall
    obtain ⟨hlt, rfl⟩ := execCall_next h
    exact .inr ⟨hlt, rfl⟩
  · exact .inl (List.ext_getElem? fun k =>
      same_of_exec_next h (e := .stack k) fun hw => hcall ((writes_stack_iff s i k).1 hw).1)

theorem exec_next_stack_length : t.stack.length = s.stack.length := by
  obtain hstack | ⟨-, hstack⟩ := exec_next_stack h
  · rw [hstack]
  · rw [hstack, List.length_set]

/-- CALL checks its push and RET counts down. -/
theorem exec_next_sp (hsp : s.sp < s.stack.length) : t.sp < s.stack.length := by
  by_cases hwrites : writes s i .sp
  · obtain rfl | ⟨nnn, rfl⟩ := (writes_sp_iff s i).1 hwrites
    · obtain ⟨a, -, -, rfl⟩ := execRet_next h
      exact Nat.lt_of_le_of_lt (Nat.sub_le _ _) hsp
    · obtain ⟨hlt, rfl⟩ := execCall_next h
      exact hlt
  · have hsame : t.sp = s.sp := same_of_exec_next h hwrites
    exact hsame ▸ hsp

/-- The writers of `I` write a 12-bit address, a checked sum or five times a byte. -/
theorem exec_next_i (hi : s.i.toNat ≤ 0xFFF) : t.i.toNat ≤ 0xFFF := by
  by_cases hwrites : writes s i .i
  · obtain ⟨nnn, rfl⟩ | ⟨x, rfl⟩ | ⟨x, rfl⟩ := (writes_i_iff s i).1 hwrites
    · obtain rfl := retire_next h
      have haddress := toNat_addressOperand nnn
      have hlt := nnn.isLt
      show (addressOperand nnn).toNat ≤ 0xFFF
      omega
    · obtain ⟨hsum, rfl⟩ := execAddI_next h
      show (s.i + (s.reg x).setWidth 16).toNat ≤ 0xFFF
      rw [BitVec.toNat_add, BitVec.toNat_setWidth]
      omega
    · obtain rfl := retire_next h
      have hproduct := toNat_five_mul_byte (s.reg x)
      have hlt := (s.reg x).isLt
      show (5 * (s.reg x).setWidth 16 : Word).toNat ≤ 0xFFF
      omega
  · have hsame : t.i = s.i := same_of_exec_next h hwrites
    exact hsame ▸ hi

/-- `pc` stays where it is (the key wait), advances by one width or by two, or takes a jump's target or a stack entry; the
memory is left alone, or takes one block that ends inside it. -/
theorem exec_next_pc_mem :
    (t.pc = s.pc ∨ t.pc = s.pc + 2 ∨ t.pc = s.pc + 4 ∨ t.pc.toNat ≤ 0x10FE ∨ t.pc ∈ s.stack) ∧
    (t.mem = s.mem ∨
      ∃ bytes : List Byte, s.i.toNat + bytes.length ≤ 0x1000 ∧ t.mem = s.mem.writeBlock s.i.toNat bytes) := by
  have haddress (nnn : Addr) : (addressOperand nnn).toNat ≤ 0x10FE := by
    rw [toNat_addressOperand]
    omega
  cases i with
  | cls | ldImm | addImm | ldReg | orReg | andReg | xorReg | addReg | subReg | shr | subn | shl | ldI | ldFromDt |
      ldToDt | ldToSt | ldFont | alunop8 | alunop9 | alunopA | alunopB | alunopC | alunopD | alunopF =>
    obtain rfl := retire_next h
    exact ⟨.inr (.inl rfl), .inl rfl⟩
  | rnd =>
    obtain rfl := retire_next h
    exact ⟨.inr (.inl (congrArg (· + 2) (State.afterDraw_pc s))), .inl (State.afterDraw_mem s)⟩
  | sys nnn | jp nnn =>
    cases h
    exact ⟨.inr (.inr (.inr (.inl (haddress nnn)))), .inl rfl⟩
  | jpV0 nnn =>
    cases h
    have hsum : ((s.reg 0).setWidth 16 + addressOperand nnn).toNat ≤ 0x10FE := by
      rw [toNat_byte_add_addressOperand]
      omega
    exact ⟨.inr (.inr (.inr (.inl hsum))), .inl rfl⟩
  | call nnn =>
    obtain ⟨-, rfl⟩ := execCall_next h
    exact ⟨.inr (.inr (.inr (.inl (haddress nnn)))), .inl rfl⟩
  | ret =>
    obtain ⟨a, -, hentry, rfl⟩ := execRet_next h
    exact ⟨.inr (.inr (.inr (.inr (List.mem_of_getElem? hentry)))), .inl rfl⟩
  | seImm | sneImm | seReg | sneReg =>
    exact ⟨.inr ((retireSkipping_next_pc h).imp_right .inl), .inl (retireSkipping_next_mem h)⟩
  | skp =>
    obtain ⟨down, -, h⟩ := execSkp_next h
    exact ⟨.inr ((retireSkipping_next_pc h).imp_right .inl), .inl (retireSkipping_next_mem h)⟩
  | sknp =>
    obtain ⟨down, -, h⟩ := execSknp_next h
    exact ⟨.inr ((retireSkipping_next_pc h).imp_right .inl), .inl (retireSkipping_next_mem h)⟩
  | ldKey =>
    obtain ⟨k, -, rfl⟩ | ⟨-, rfl⟩ := execLdKey_next h
    · exact ⟨.inr (.inl rfl), .inl rfl⟩
    · exact ⟨.inl rfl, .inl rfl⟩
  | addI =>
    obtain ⟨-, rfl⟩ := execAddI_next h
    exact ⟨.inr (.inl rfl), .inl rfl⟩
  | drw =>
    obtain ⟨-, rfl⟩ := execDrw_next h
    exact ⟨.inr (.inl rfl), .inl rfl⟩
  | ldBcd x =>
    obtain ⟨hrange, rfl⟩ := execLdBcd_next h
    exact ⟨.inr (.inl rfl), .inr ⟨bcdDigits (s.reg x), hrange, rfl⟩⟩
  | store x =>
    obtain ⟨hrange, rfl⟩ := execStore_next h
    exact ⟨.inr (.inl rfl), .inr ⟨_, (s.length_regBlock x).symm ▸ hrange, rfl⟩⟩
  | load =>
    obtain ⟨-, rfl⟩ := execLoad_next h
    exact ⟨.inr (.inl (congrArg (· + 2) (State.loadRegs_pc s _))), .inl (State.loadRegs_mem s _)⟩

/-- Every instruction keeps the invariant. -/
theorem State.Inv.exec (hs : s.Inv) : t.Inv where
  memory := by
    obtain hmem | ⟨bytes, hrange, hmem⟩ := (exec_next_pc_mem h).2
    · exact hmem ▸ hs.memory
    · exact hmem ▸ Memory.writeBlock_wf s.mem _ bytes hs.memory hrange
  index := exec_next_i h hs.index
  stackPointer := exec_next_stack_length h ▸ exec_next_sp h hs.stackPointer
  capacity := exec_next_stack_length h ▸ hs.capacity

/-- Every instruction at a `pc` that can be fetched from keeps the bounds: two widths further is at most 0x1002. -/
theorem State.PcBounds.exec (hs : s.PcBounds) (hpc : s.pc.toNat ≤ 0xFFE) : t.PcBounds where
  pc := by
    obtain heq | heq | heq | hjump | hentry := (exec_next_pc_mem h).1
    · rw [heq]
      omega
    · bv_omega
    · bv_omega
    · exact hjump
    · exact Nat.le_trans (hs.stack _ hentry) (by decide)
  stack a ha := by
    obtain heq | ⟨-, heq⟩ := exec_next_stack h
    · exact hs.stack a (heq ▸ ha)
    · obtain hold | hnew := List.mem_or_eq_of_mem_set (heq ▸ ha)
      · exact hs.stack a hold
      · rw [hnew, toNat_pc_add_two hpc]
        omega

end

/-- The induction over what a step can be: a property that taking an event off the queue, `Tick`, `KeyWrite`, `Boot` and a
Step of the core keep is kept by every step. -/
theorem step_keeps {P : State → Prop} (hqueue : ∀ s rest, P s → P { s with pending := rest })
    (htick : ∀ s, P s → P s.tick) (hkey : ∀ s k b, P s → P (s.keyWrite k b))
    (hboot : ∀ s t rom, P s → s.reboot rom = .next t → P t) (hcycle : ∀ s t, P s → cycle s = .next t → P t)
    {s t : State} (hs : P s) (h : step s = .next t) : P t := by
  obtain ⟨-, h⟩ | ⟨rest, -, h⟩ | ⟨rest, -, rfl⟩ | ⟨k, b, rest, -, rfl⟩ | ⟨rom, rest, -, h⟩ := step_next h
  · exact hcycle s t hs h
  · exact hcycle _ t (hqueue s rest hs) h
  · exact htick _ (hqueue s rest hs)
  · exact hkey _ k b (hqueue s rest hs)
  · exact hboot _ t rom (hqueue s rest hs) h

theorem State.booted_inv {capacity : Nat} (hcapacity : 12 ≤ capacity ∧ capacity ≤ 16) (font : Vector Byte 80)
    {rom : List Byte} (hrom : rom.length ≤ 3583) : (State.booted capacity font rom).Inv where
  memory := by
    have hfont : (Memory.writeBlock [] 0 font.toList).wf :=
      Memory.writeBlock_wf [] 0 _ ⟨.nil, nofun⟩ (by rw [Vector.length_toList]; decide)
    exact Memory.writeBlock_wf _ _ rom hfont (by simp only [Config.progBase, Config.memSize]; omega)
  index := by rw [State.booted_i]; decide
  stackPointer := by rw [State.booted_stack, List.length_replicate]; exact Nat.lt_of_lt_of_le (show 0 < 12 by decide) hcapacity.1
  capacity := by rw [State.booted_stack, List.length_replicate]; exact hcapacity

theorem State.booted_pcBounds (capacity : Nat) (font : Vector Byte 80) (rom : List Byte) :
    (State.booted capacity font rom).PcBounds where
  pc := by rw [State.booted_pc]; decide
  stack a ha := by
    rw [State.booted_stack] at ha
    rw [List.eq_of_mem_replicate ha]
    decide

/-- The forms whose rule names a stop: a fault of 60_exceptions.md, or the refusal of RET (log entry 17). -/
def Instr.MayStop : Instr → Prop
  | .ret | .call _ | .addI _ | .ldBcd _ | .store _ | .load _ | .drw _ _ _ | .skp _ | .sknp _ => True
  | _ => False

/-- Every other instruction completes in every state. -/
theorem exec_completes {i : Instr} (hi : ¬ Instr.MayStop i) (s : State) : ∃ t, exec i s = .next t := by
  cases i with
  | ret | call | addI | ldBcd | store | load | drw | skp | sknp => exact absurd trivial hi
  | ldKey x =>
    show ∃ t, execLdKey x s = .next t
    unfold execLdKey
    split <;> exact ⟨_, rfl⟩
  | _ => exact ⟨_, rfl⟩

theorem retire_ne_refused {s : State} {r : Refusal} : retire s ≠ .refused r := nofun

theorem retireSkipping_ne_refused {c : Bool} {s : State} {r : Refusal} : retireSkipping c s ≠ .refused r := nofun

theorem execRet_refused {s : State} {r : Refusal} (h : execRet s = .refused r) : s.stack.length ≤ s.sp := by
  simp only [execRet, raise] at h
  split_ifs at h
  split at h
  · cases h
  · exact List.getElem?_eq_none_iff.1 ‹_›

/-- RET outside the stack is the only instruction that is refused. -/
theorem exec_refused {i : Instr} {s : State} {r : Refusal} (h : exec i s = .refused r) :
    i = .ret ∧ s.stack.length ≤ s.sp := by
  by_cases hi : Instr.MayStop i
  · cases i with
    | ret => exact ⟨rfl, execRet_refused h⟩
    | call =>
      simp only [exec, execCall, raise] at h
      split_ifs at h
    | addI =>
      simp only [exec, execAddI, raise] at h
      split_ifs at h
      exact absurd h retire_ne_refused
    | ldBcd | store | load | drw => exact absurd (checkRange_refused h) retire_ne_refused
    | skp | sknp =>
      simp only [exec, execSkp, execSknp, raise] at h
      split at h
      · exact absurd h retireSkipping_ne_refused
      · cases h
    | _ => exact hi.elim
  · obtain ⟨t, ht⟩ := exec_completes hi s
    rw [ht] at h
    cases h

theorem boot_fault_iff {capacity : Nat} {font : Vector Byte 80} {rom : List Byte} {f : Fault} :
    boot capacity font rom = .fault f ↔ 3583 < rom.length ∧ f = .romTooLarge rom.length := by
  have hmax : romMax = 3583 := rfl
  simp only [boot, raise, hmax]
  split_ifs with hrom
  · simp [hrom, eq_comm]
  · simp [hrom]

/-- `Boot` is never refused. -/
theorem State.reboot_ne_refused {s : State} {rom : List Byte} {r : Refusal} : s.reboot rom ≠ .refused r := by
  unfold State.reboot boot raise
  split_ifs <;> nofun

/-- A step that is refused is a Step of the core. -/
theorem step_refused {s : State} {r : Refusal} (h : step s = .refused r) :
    ∃ rest, cycle { s with pending := rest } = .refused r := by
  unfold step nextEvent at h
  split at h
  · rename_i hp
    exact ⟨[], hp ▸ h⟩
  · rename_i e rest hp
    cases e with
    | step => exact ⟨rest, h⟩
    | tick | keyWrite => cases h
    | boot rom => exact absurd h State.reboot_ne_refused

/-- A `Boot` event with a ROM that fits. -/
theorem State.reboot_of_length_le (s : State) {rom : List Byte} (h : rom.length ≤ 3583) :
    s.reboot rom = .next { State.booted s.stack.length s.font rom with
      pending := s.pending, rndIn := s.rndIn, rndDraws := s.rndDraws } := by
  rw [State.reboot, boot_of_length_le _ _ _ h]

/-- A `Boot` event with a ROM that is too large. -/
theorem State.reboot_of_lt_length (s : State) {rom : List Byte} (h : 3583 < rom.length) :
    s.reboot rom = .fault (.romTooLarge rom.length) := by
  rw [State.reboot, boot_fault_iff.2 ⟨h, rfl⟩]

/-- A step with an event first in the queue is that event. -/
theorem step_of_event {s : State} {e : Event} {rest : List Event} (h : s.pending = e :: rest) :
    step s = runEvent e { s with pending := rest } := by
  simp only [step, nextEvent, h]

/-- A step with no event waiting is a Step of the core. -/
theorem step_of_no_event {s : State} (h : s.pending = []) : step s = cycle s := by
  simp only [step, nextEvent, h]

end Sys2Proof.Machine
end

section
/-! PROOFS. The invariants of 10_state.md and the parameters of 00_scope.md section 3, over every step. -/

namespace Sys2Proof.Proofs
open Sys2Proof.Machine

/-- Settles O13: the events other than a Step touch neither memory, `I`, stack nor `sp`, but for `Boot`, which builds them
anew. -/
theorem stepKeepsTheInvariant : Obligations.StepKeepsTheInvariant := by
  intro s t hs h
  refine step_keeps (P := State.Inv) ?queue ?tick ?key ?boot ?cycle hs h
  case queue => exact fun s rest hs => ⟨hs.memory, hs.index, hs.stackPointer, hs.capacity⟩
  case tick => exact fun s hs => ⟨hs.memory, hs.index, hs.stackPointer, hs.capacity⟩
  case key => exact fun s k b hs => ⟨hs.memory, hs.index, hs.stackPointer, hs.capacity⟩
  case boot =>
    intro s t rom hs h
    obtain ⟨hrom, rfl⟩ := State.reboot_next h
    obtain ⟨hmem, hi, hsp, hcapacity⟩ := State.booted_inv hs.capacity s.font hrom
    exact ⟨hmem, hi, hsp, hcapacity⟩
  case cycle =>
    intro s t hs h
    obtain ⟨i, -, hexec⟩ := cycle_next h
    exact State.Inv.exec hexec hs

/-- Settles O14: a Step that goes on was fetched from at most 0xFFE. -/
theorem stepKeepsThePcBounds : Obligations.StepKeepsThePcBounds := by
  intro s t hs h
  refine step_keeps (P := State.PcBounds) ?queue ?tick ?key ?boot ?cycle hs h
  case queue => exact fun s rest hs => ⟨hs.pc, hs.stack⟩
  case tick => exact fun s hs => ⟨hs.pc, hs.stack⟩
  case key => exact fun s k b hs => ⟨hs.pc, hs.stack⟩
  case boot =>
    intro s t rom _ h
    obtain ⟨-, rfl⟩ := State.reboot_next h
    obtain ⟨hpc, hstack⟩ := State.booted_pcBounds s.stack.length s.font rom
    exact ⟨hpc, hstack⟩
  case cycle =>
    intro s t hs h
    obtain ⟨i, hfetch, hexec⟩ := cycle_next h
    exact State.PcBounds.exec hexec hs (State.fetch_ok hfetch).1

/-- Settles O12: the memory of the reset state lists nothing, and its stack holds zeros. -/
theorem resetSatisfiesTheInvariants : Obligations.ResetSatisfiesTheInvariants := by
  refine ⟨⟨⟨.nil, nofun⟩, by decide, by decide, by decide⟩, ⟨by decide, fun a ha => ?stack⟩⟩
  case stack =>
    rw [List.eq_of_mem_replicate ha]
    decide

/-- Settles O15: an instruction overwrites at most an entry, and a `Boot` takes the capacity of the old state. -/
theorem stepKeepsTheCapacity : Obligations.StepKeepsTheCapacity := by
  intro s t h
  refine step_keeps (P := fun u => u.stack.length = s.stack.length) ?queue ?tick ?key ?boot ?cycle rfl h
  case queue => exact fun _ _ hu => hu
  case tick => exact fun _ hu => hu
  case key => exact fun _ _ _ hu => hu
  case boot =>
    intro u t rom hu h
    obtain ⟨-, rfl⟩ := State.reboot_next h
    exact List.length_replicate.trans hu
  case cycle =>
    intro u t hu h
    obtain ⟨i, -, hexec⟩ := cycle_next h
    exact (exec_next_stack_length hexec).trans hu

/-- Settles O59: no instruction writes FONT, and a `Boot` copies it from the old state. -/
theorem stepKeepsTheFont : Obligations.StepKeepsTheFont := by
  intro s t h
  refine step_keeps (P := fun u => u.font = s.font) ?queue ?tick ?key ?boot ?cycle rfl h
  case queue => exact fun _ _ hu => hu
  case tick => exact fun _ hu => hu
  case key => exact fun _ _ _ hu => hu
  case boot =>
    intro u t rom hu h
    obtain ⟨-, rfl⟩ := State.reboot_next h
    exact hu
  case cycle =>
    intro u t hu h
    obtain ⟨i, -, hexec⟩ := cycle_next h
    have hfont : t.font = u.font := same_of_exec_next hexec (not_writes_font u i)
    exact hfont.trans hu

/-- Settles O16: a refused step is a Step, and RET refuses only outside the stack. -/
theorem nothingIsRefused : Obligations.NothingIsRefused := by
  refine ⟨fun i s r h => exec_refused h, fun s r hsp h => ?step⟩
  case step =>
    obtain ⟨rest, hcycle⟩ := step_refused h
    obtain ⟨i, -, hexec⟩ := cycle_refused hcycle
    obtain ⟨-, hout⟩ := exec_refused hexec
    exact Nat.not_lt.2 hout hsp

/-- Settles O10. -/
theorem bootRejectsExactlyTheLargeRoms : Obligations.BootRejectsExactlyTheLargeRoms := by
  intro capacity font rom
  refine ⟨⟨fun hrom => ⟨_, boot_fault_iff.2 ⟨hrom, rfl⟩⟩, ?small⟩, fun f h => (boot_fault_iff.1 h).2⟩
  case small =>
    rintro ⟨f, h⟩
    exact (boot_fault_iff.1 h).1

/-- Settles O11: of the old state a `Boot` event reads the capacity, FONT and the host's side alone. -/
theorem rebootForgetsTheOldState : Obligations.RebootForgetsTheOldState := by
  refine ⟨fun s rom rest hp => ⟨fun hrom => ?fits, fun hrom => ?tooLarge⟩,
    fun s₁ s₂ rom rest hp₁ hp₂ hcapacity hfont hin hdraws => ?forgets⟩
  case fits => exact ⟨_, boot_of_length_le _ _ _ hrom, (step_of_event hp).trans (State.reboot_of_length_le _ hrom)⟩
  case tooLarge => exact (step_of_event hp).trans (State.reboot_of_lt_length _ hrom)
  case forgets =>
    rw [step_of_event hp₁, step_of_event hp₂]
    simp only [runEvent, State.reboot, hcapacity, hfont, hin, hdraws]

end Sys2Proof.Proofs
end

section
/-! SUPPORT. The Step algorithm of 00_scope.md R10 and the skips with two registers of 41_skips.md. -/

namespace Sys2Proof.Machine

/-- The word that the fetch reads, decoded as its two bytes are. -/
theorem decodeWord_fetchWord_of_decode {s : State} {i : Instr}
    (h : decode [s.mem.read s.pc.toNat, s.mem.read (s.pc.toNat + 1)] = .ok (i, [])) :
    decodeWord s.fetchWord = .ok i := by
  rw [decode_cons_cons] at h
  show decodeWord (wordOfBytes _ _) = .ok i
  cases hword : decodeWord (wordOfBytes (s.mem.read s.pc.toNat) (s.mem.read (s.pc.toNat + 1))) with
  | ok j =>
    rw [hword] at h
    cases h
    rfl
  | error e =>
    rw [hword] at h
    cases h

theorem State.fetch_of_lt {s : State} (h : 0xFFE < s.pc.toNat) : s.fetch = .error (.pcOutOfRange s.pc) := by
  rw [State.fetch_eq, if_pos h]

theorem State.fetch_of_undefined {s : State} {e : DecodeError} (hpc : s.pc.toNat ≤ 0xFFE)
    (h : decodeWord s.fetchWord = .error e) : s.fetch = .error (.illegalInstruction s.fetchWord s.pc) := by
  rw [State.fetch_eq, if_neg (Nat.not_lt.2 hpc), h]

theorem cycle_of_fetch_error {s : State} {f : Fault} (h : s.fetch = .error f) : cycle s = .fault f := by
  simp only [cycle, h, raise]

theorem exec_seReg (x y : Reg) (s : State) : exec (.seReg x y) s = retireSkipping (s.reg x == s.reg y) s := rfl

theorem exec_sneReg (x y : Reg) (s : State) : exec (.sneReg x y) s = retireSkipping (s.reg x != s.reg y) s := rfl

end Sys2Proof.Machine
end

section
/-! PROOFS. The Step of 00_scope.md section 5 with its faults before the execution, the skips with two registers, and RET
after CALL. -/

namespace Sys2Proof.Proofs
open Sys2Proof.Machine

/-- Settles O6: the queue decides the event, and a Step executes what it fetched; the queue is no part of the fetch. -/
theorem stepRunsTheDecodedInstruction : Obligations.StepRunsTheDecodedInstruction := by
  refine fun s => ⟨step_of_no_event, fun e rest hp => step_of_event hp, fun i hpc hdecode => ?step⟩
  have hfetch : s.fetch = .ok i := State.fetch_of_decodes hpc (decodeWord_fetchWord_of_decode hdecode)
  exact ⟨fun hp => (step_of_no_event hp).trans (cycle_of_fetch hfetch),
    fun rest hp => (step_of_event hp).trans (cycle_of_fetch hfetch)⟩

/-- Settles O8. -/
theorem fetchAndDecodeFaults : Obligations.FetchAndDecodeFaults := fun _ hp =>
  ⟨fun hpc => (step_of_no_event hp).trans (cycle_of_fetch_error (State.fetch_of_lt hpc)),
    fun _ hpc hword => (step_of_no_event hp).trans (cycle_of_fetch_error (State.fetch_of_undefined hpc hword))⟩

/-- Settles O24: SE and SNE are all of classes 5 and 9, and each is a conditional skip on its comparison. -/
theorem skipsCompareTheRegisters : Obligations.SkipsCompareTheRegisters := by
  refine ⟨?decodeSe, ?decodeSne, ?execSe, ?execSne⟩
  case decodeSe | decodeSne =>
    intro w h
    rw [decodeWord, toNat_classOf_of_and_F000 h]
    rfl
  case execSe =>
    intro x y s
    obtain ⟨t, hnext, hskip, hadvance, hreg⟩ := retireSkipping_completes (s.reg x == s.reg y) s
    exact ⟨t, (exec_seReg x y s).trans hnext, fun heq => hskip (beq_iff_eq.2 heq),
      fun hne => hadvance (beq_eq_false_iff_ne.2 hne), hreg 15⟩
  case execSne =>
    intro x y s
    obtain ⟨t, hnext, hskip, hadvance, hreg⟩ := retireSkipping_completes (s.reg x != s.reg y) s
    exact ⟨t, (exec_sneReg x y s).trans hnext, fun hne => hskip (bne_iff_ne.2 hne),
      fun heq => hadvance (bne_eq_false_iff_eq.2 heq), hreg 15⟩

/-- Settles O22: the entry that CALL pushed is the one at the `sp` that it left, which is not 0. -/
theorem returnComesBackAfterTheCall : Obligations.ReturnComesBackAfterTheCall := by
  intro nnn s t u h hsp hstack
  obtain ⟨hlt, rfl⟩ := execCall_next h
  have hsp' : u.sp = s.sp + 1 := hsp
  have hstack' : u.stack = s.stack.set (s.sp + 1) (s.pc + 2) := hstack
  have hentry : u.stack[u.sp]? = some (s.pc + 2) := by rw [hsp', hstack', List.getElem?_set_self hlt]
  refine ⟨_, exec_ret_of_entry (by omega) hentry, rfl, ?sp, fun k hk => ?stack⟩
  case sp => rw [State.popReturn_sp, hsp', Nat.add_sub_cancel]
  case stack => rw [State.popReturn_stack, hstack', List.getElem?_set_ne hk.symm]

end Sys2Proof.Proofs
end

section
/-! SUPPORT. The two-register operations of 42_alu.md section 3 and RND: an instruction that writes a flag and then its result
(decision D9), and the random input. -/

namespace Sys2Proof.Machine

/-- A write of VF and then of `v[x]`, which retires: `v[x]` is the result, and VF the flag unless the result went there. -/
theorem reg_of_flag_then_result (s : State) (x : Reg) (f b : Byte) :
    ((s.setFlag f).setReg x b).advance.reg x = b ∧ (x ≠ 15 → ((s.setFlag f).setReg x b).advance.reg 15 = f) := by
  refine ⟨?result, fun hx => ?flag⟩
  case result => rw [State.reg_advance, State.reg_setReg, if_pos rfl]
  case flag => rw [State.reg_advance, State.reg_setReg, if_neg hx.symm, State.reg_setFlag]; exact if_pos rfl

/-- An operand read after the flag was written. -/
theorem toNat_reg_setFlag (s : State) (x : Reg) (f : Byte) :
    ((s.setFlag f).reg x).toNat = if x = 15 then f.toNat else (s.reg x).toNat := by
  rw [State.reg_setFlag, apply_ite BitVec.toNat]
  rfl

theorem toNat_greaterFlag (a b : Byte) : (greaterFlag a b).toNat = if b.toNat < a.toNat then 1 else 0 := by
  unfold greaterFlag flagByte
  split_ifs <;> simp_all

theorem carryFlag_of_lt {a b : Byte} (h : 255 < a.toNat + b.toNat) : carryFlag a b = 1 := by
  simp [carryFlag, flagByte, h]

theorem carryFlag_of_le {a b : Byte} (h : a.toNat + b.toNat ≤ 255) : carryFlag a b = 0 := by
  simp [carryFlag, flagByte, Nat.not_lt.2 h]

/-- The 8-bit difference as claims state it. -/
theorem toNat_byte_sub (a b : Byte) : (a - b).toNat = (a.toNat + 256 - b.toNat) % 256 := by
  have hb := b.isLt
  rw [BitVec.toNat_sub]
  omega

/-- The strict comparison of `v[a]` and `v[b]` goes to VF, then their difference, of the registers as they then stand, to
`v[x]`. -/
theorem flag_then_difference (s : State) (x a b : Reg) (f m n : Nat)
    (hf : f = if (s.reg b).toNat < (s.reg a).toNat then 1 else 0) (hm : m = if a = 15 then f else (s.reg a).toNat)
    (hn : n = if b = 15 then f else (s.reg b).toNat) :
    let u := s.setFlag (greaterFlag (s.reg a) (s.reg b))
    let t := (u.setReg x (u.reg a - u.reg b)).advance
    (t.reg x).toNat = (m + 256 - n) % 256 ∧ (x ≠ 15 → (t.reg 15).toNat = f) := by
  rw [← toNat_greaterFlag] at hf
  subst hf
  rw [← toNat_reg_setFlag] at hm hn
  subst hm hn
  obtain ⟨hresult, hflag⟩ := reg_of_flag_then_result s x (greaterFlag (s.reg a) (s.reg b)) _
  rw [← toNat_byte_sub]
  exact ⟨congrArg BitVec.toNat hresult, fun hx => congrArg BitVec.toNat (hflag hx)⟩

theorem toNat_byte_shiftRight_one (b : Byte) : (b >>> 1).toNat = b.toNat / 2 := by
  rw [BitVec.toNat_ushiftRight, Nat.shiftRight_eq_div_pow, Nat.pow_one]

theorem toNat_byte_shiftLeft_one (b : Byte) : (b <<< 1).toNat = 2 * b.toNat % 256 := by
  rw [BitVec.toNat_shiftLeft, Nat.shiftLeft_eq, Nat.pow_one, Nat.mul_comm]

/-- The draw consumes a supplied value and leaves the counter. -/
theorem State.draw_of_supplied {s : State} {b : Byte} {rest : List Byte} (h : s.rndIn = b :: rest) :
    s.rndInput = b ∧ s.afterDraw.rndIn = rest ∧ s.afterDraw.rndDraws = s.rndDraws := by
  simp only [State.rndInput, State.afterDraw, h, and_self]

/-- With none supplied the draw counts. -/
theorem State.draw_of_none {s : State} (h : s.rndIn = []) :
    s.afterDraw.rndIn = [] ∧ s.afterDraw.rndDraws = s.rndDraws + 1 := by
  simp only [State.afterDraw, h, and_self]

theorem exec_ldReg (x y : Reg) (s : State) : exec (.ldReg x y) s = retire (s.setReg x (s.reg y)) := rfl

theorem exec_orReg (x y : Reg) (s : State) : exec (.orReg x y) s = retire (s.setReg x (s.reg x ||| s.reg y)) := rfl

theorem exec_andReg (x y : Reg) (s : State) : exec (.andReg x y) s = retire (s.setReg x (s.reg x &&& s.reg y)) := rfl

theorem exec_xorReg (x y : Reg) (s : State) : exec (.xorReg x y) s = retire (s.setReg x (s.reg x ^^^ s.reg y)) := rfl

theorem exec_addReg (x y : Reg) (s : State) : exec (.addReg x y) s =
    .next ((s.setFlag (carryFlag (s.reg x) (s.reg y))).setReg x (s.reg x + s.reg y)).advance := rfl

theorem exec_subReg (x y : Reg) (s : State) : exec (.subReg x y) s =
    .next (subtractInto x y (s.setFlag (greaterFlag (s.reg x) (s.reg y)))).advance := rfl

theorem exec_subn (x y : Reg) (s : State) : exec (.subn x y) s =
    .next (subtractReversedInto x y (s.setFlag (greaterFlag (s.reg y) (s.reg x)))).advance := rfl

theorem exec_shr (x : Reg) (s : State) :
    exec (.shr x) s = .next (shiftRightInto x (s.setFlag (shiftRightFlag (s.reg x)))).advance := rfl

theorem exec_shl (x : Reg) (s : State) :
    exec (.shl x) s = .next (shiftLeftInto x (s.setFlag (shiftLeftFlag (s.reg x)))).advance := rfl

theorem exec_rnd (x : Reg) (nn : Byte) (s : State) :
    exec (.rnd x nn) s = .next (s.afterDraw.setReg x (s.rndInput &&& nn)).advance := rfl

end Sys2Proof.Machine
end

section
/-! PROOFS. The two-register operations of 42_alu.md section 3, and RND. The frames are those of the frame rule. -/

namespace Sys2Proof.Proofs
open Sys2Proof.Machine

/-- Settles O26: each is a retired register write, and a bitwise operation acts bit by bit. -/
theorem registerCopyAndLogic : Obligations.RegisterCopyAndLogic := by
  refine ⟨?decodeLd, ?decodeOr, ?decodeAnd, ?decodeXor, fun x y s => ⟨?execLd, ?execOr, ?execAnd, ?execXor⟩⟩
  case decodeLd | decodeOr | decodeAnd | decodeXor =>
    exact decodesAs_of_class8 rfl fun w hn => by rw [decodeClass8, hn]; rfl
  case execLd => exact exec_ldReg x y s ▸ retire_setReg_completes s x (s.reg y)
  case execOr =>
    obtain ⟨t, hnext, hresult, hpc, hflag⟩ := retire_setReg_completes s x (s.reg x ||| s.reg y)
    exact ⟨t, (exec_orReg x y s).trans hnext, fun k _ => hresult ▸ BitVec.getLsbD_or, hpc, hflag⟩
  case execAnd =>
    obtain ⟨t, hnext, hresult, hpc, hflag⟩ := retire_setReg_completes s x (s.reg x &&& s.reg y)
    exact ⟨t, (exec_andReg x y s).trans hnext, fun k _ => hresult ▸ BitVec.getLsbD_and, hpc, hflag⟩
  case execXor =>
    obtain ⟨t, hnext, hresult, hpc, hflag⟩ := retire_setReg_completes s x (s.reg x ^^^ s.reg y)
    exact ⟨t, (exec_xorReg x y s).trans hnext, fun k _ => hresult ▸ BitVec.getLsbD_xor, hpc, hflag⟩

/-- Settles O27: the sum is formed before either write, and written last. -/
theorem addSetsTheCarry : Obligations.AddSetsTheCarry := by
  refine ⟨decodesAs_of_class8 rfl fun w hn => by rw [decodeClass8, hn]; rfl, fun x y s => ?exec⟩
  obtain ⟨hresult, hflag⟩ := reg_of_flag_then_result s x (carryFlag (s.reg x) (s.reg y)) (s.reg x + s.reg y)
  have hnext := exec_addReg x y s
  exact ⟨_, hnext, by rw [hresult, BitVec.toNat_add], fun hx hsum => (hflag hx).trans (carryFlag_of_lt hsum),
    fun hx hsum => (hflag hx).trans (carryFlag_of_le hsum), rfl, execChangesOnlyWhatItsRuleWrites _ s _ hnext⟩

/-- Settles O28: the difference is formed from the registers as the flag write left them. -/
theorem subtractSetsTheStrictFlag : Obligations.SubtractSetsTheStrictFlag := by
  refine ⟨?decodeSub, ?decodeSubn, fun x y s => ?execSub, fun x y s => ?execSubn⟩
  case decodeSub | decodeSubn => exact decodesAs_of_class8 rfl fun w hn => by rw [decodeClass8, hn]; rfl
  case execSub =>
    have hnext := exec_subReg x y s
    exact ⟨_, hnext, flag_then_difference s x x y, rfl, execChangesOnlyWhatItsRuleWrites _ s _ hnext⟩
  case execSubn =>
    have hnext := exec_subn x y s
    exact ⟨_, hnext, flag_then_difference s x y x, rfl, execChangesOnlyWhatItsRuleWrites _ s _ hnext⟩

/-- Settles O29: away from VF the operand is unchanged by the flag write; at VF it is the flag, at most 1. -/
theorem shiftRightMovesBitZeroOut : Obligations.ShiftRightMovesBitZeroOut := by
  refine ⟨decodesAs_of_class8 rfl fun w hn => by rw [decodeClass8, hn]; rfl, fun x s => ?exec⟩
  have hnext := exec_shr x s
  obtain ⟨hresult, hflag⟩ := reg_of_flag_then_result s x (shiftRightFlag (s.reg x))
    ((s.setFlag (shiftRightFlag (s.reg x))).reg x >>> 1)
  have hvalue := congrArg BitVec.toNat hresult
  rw [toNat_byte_shiftRight_one, toNat_reg_setFlag] at hvalue
  refine ⟨_, hnext, fun hx => ⟨?half, ?bit⟩, fun hx => ?flagItself, rfl, execChangesOnlyWhatItsRuleWrites _ s _ hnext⟩
  case half => exact hvalue.trans (by rw [if_neg hx])
  case bit => exact (congrArg BitVec.toNat (hflag hx)).trans (toNat_shiftRightFlag _)
  case flagItself =>
    subst hx
    rw [if_pos rfl, toNat_shiftRightFlag] at hvalue
    exact BitVec.eq_of_toNat_eq (hvalue.trans (show _ = 0 by omega))

/-- Settles O30: away from VF the operand is unchanged by the flag write; at VF it is the flag. -/
theorem shiftLeftMovesBitSevenOut : Obligations.ShiftLeftMovesBitSevenOut := by
  refine ⟨decodesAs_of_class8 rfl fun w hn => by rw [decodeClass8, hn]; rfl, fun x s => ?exec⟩
  have hnext := exec_shl x s
  obtain ⟨hresult, hflag⟩ := reg_of_flag_then_result s x (shiftLeftFlag (s.reg x))
    ((s.setFlag (shiftLeftFlag (s.reg x))).reg x <<< 1)
  have hvalue := congrArg BitVec.toNat hresult
  rw [toNat_byte_shiftLeft_one, toNat_reg_setFlag] at hvalue
  refine ⟨_, hnext, fun hx => ⟨?double, ?bit⟩, fun hx => ?flagItself, rfl, execChangesOnlyWhatItsRuleWrites _ s _ hnext⟩
  case double => exact hvalue.trans (by rw [if_neg hx])
  case bit => exact (congrArg BitVec.toNat (hflag hx)).trans (toNat_shiftLeftFlag _)
  case flagItself =>
    subst hx
    rw [if_pos rfl, toNat_shiftLeftFlag] at hvalue
    exact hvalue.trans (by omega)

/-- Settles O32: a mask bit that is 0 clears the bit, whatever the drawn byte. -/
theorem randomIsMasked : Obligations.RandomIsMasked := by
  refine ⟨?decode, fun x nn s => ?exec⟩
  case decode =>
    intro w h
    rw [decodeWord, toNat_classOf_of_and_F000 h]
    rfl
  case exec =>
    have hnext := exec_rnd x nn s
    have hresult : (s.afterDraw.setReg x (s.rndInput &&& nn)).advance.reg x = s.rndInput &&& nn := by
      rw [State.reg_advance, State.reg_setReg, if_pos rfl]
    refine ⟨_, s.rndInput, hnext, hresult, fun k hk => ?mask, fun b rest hin => ?supplied, fun hin => ?free, ?pc,
      execChangesOnlyWhatItsRuleWrites _ s _ hnext⟩
    case mask => rw [hresult, BitVec.getLsbD_and, hk, Bool.and_false]
    case supplied => exact State.draw_of_supplied hin
    case free => exact State.draw_of_none hin
    case pc => exact congrArg (· + 2) (State.afterDraw_pc s)

end Sys2Proof.Proofs
end

section
/-! SUPPORT. The memory transfers of 43_index_memory.md and the draw of 44_display.md: where each completes and where it faults
(decisions D4, D5), and what the stored bytes and the drawn pixels read as. -/

namespace Sys2Proof.Machine

theorem exec_addI_of_le {x : Reg} {s : State} (h : s.i.toNat + (s.reg x).toNat ≤ 0xFFF) :
    exec (.addI x) s = .next (s.setI (s.i + (s.reg x).setWidth 16)).advance := if_neg (Nat.not_lt.2 h)

theorem exec_addI_of_lt {x : Reg} {s : State} (h : 0xFFF < s.i.toNat + (s.reg x).toNat) :
    exec (.addI x) s = .fault (.indexOutOfRange (s.i.toNat + (s.reg x).toNat) s.pc (encodeWord (.addI x))) := if_pos h

/-- A sum that stays in the range of `I` does not wrap in 16 bits. -/
theorem toNat_index_add_byte {a : Word} {b : Byte} (h : a.toNat + b.toNat ≤ 0xFFF) :
    (a + b.setWidth 16).toNat = a.toNat + b.toNat := by
  rw [BitVec.toNat_add, BitVec.toNat_setWidth]
  omega

/-- The range check lets a transfer through whose bytes all lie in memory. -/
theorem checkRange_of_le {s : State} {m : Nat} (w : Word) (go : Outcome) (h : m = 0 ∨ s.i.toNat + m ≤ 0x1000) :
    checkRange s m w go = go := by
  rw [checkRange_eq, if_pos h]

theorem exec_ldBcd_of_le {x : Reg} {s : State} (h : s.i.toNat + 2 ≤ 0xFFF) :
    exec (.ldBcd x) s = .next (s.storeBlock (bcdDigits (s.reg x))).advance :=
  checkRange_of_le _ _ (.inr (by omega))

theorem exec_store_of_le {x : Reg} {s : State} (h : s.i.toNat + x.val ≤ 0xFFF) :
    exec (.store x) s = .next (s.storeBlock (s.regBlock x)).advance :=
  checkRange_of_le _ _ (.inr (by omega))

theorem exec_load_of_le {x : Reg} {s : State} (h : s.i.toNat + x.val ≤ 0xFFF) :
    exec (.load x) s = .next (s.loadRegs (x.val + 1)).advance :=
  checkRange_of_le _ _ (.inr (by omega))

theorem exec_drw_of_le {x y : Reg} {n : Nibble} {s : State} (h : n.toNat = 0 ∨ s.i.toNat + n.toNat ≤ 0x1000) :
    exec (.drw x y n) s = .next (s.commitDrawing (s.drawSprite x y n)).advance :=
  checkRange_of_le _ _ h

/-- A stored register is read back at its place in the block. -/
theorem State.read_storeBlock_regBlock {s : State} (hm : s.mem.wf) {x k : Reg} (hk : k ≤ x) :
    (s.storeBlock (s.regBlock x)).mem.read (s.effectiveAddress k.val) = s.reg k := by
  rw [State.effectiveAddress_eq, State.read_storeBlock_at s hm, State.getD_regBlock s x k hk]

/-- A loaded register holds the byte at its place in the block. -/
theorem State.reg_loadRegs_of_le (s : State) {x k : Reg} (hk : k ≤ x) :
    (s.loadRegs (x.val + 1)).reg k = s.mem.read (s.effectiveAddress k.val) := by
  rw [State.reg_loadRegs s _ x.isLt, if_pos (Nat.lt_succ_of_le hk)]

/-- Digit `k` of a stored byte is read back at `I + k`. -/
theorem State.read_storeBlock_bcdDigits {s : State} (hm : s.mem.wf) (b : Byte) {k : Nat} (hk : k < 3) :
    (s.storeBlock (bcdDigits b)).mem.read (s.effectiveAddress k) = (bcdDigits b)[k] := by
  rw [State.effectiveAddress_eq, State.read_storeBlock_at s hm, List.getD_eq_getElem _ _ hk]

/-- A number that fits a byte. -/
theorem toNat_byte_ofNat {d : Nat} (h : d < 256) : (BitVec.ofNat 8 d).toNat = d := by
  rw [BitVec.toNat_ofNat, Nat.mod_eq_of_lt h]

/-- VF after a draw is 1 exactly when a sprite bit met a lit pixel. -/
theorem State.hit_drawSprite (s : State) (x y : Reg) (n : Nibble) :
    (s.drawSprite x y n).hit = true ↔ ∃ r c, s.spritePixel x y n r c = true ∧ Framebuffer.pixel s.fb r c = true := by
  rw [State.drawSprite, hit_drawRows]
  simp only [State.spritePixel_eq, Bool.false_eq_true, false_or]

/-- VF after a draw. -/
theorem State.reg_vf_commitDrawing (s : State) (d : Drawing) : (s.commitDrawing d).advance.reg 15 = flagByte d.hit := by
  rw [State.reg_advance, State.reg_commitDrawing]
  exact if_pos rfl

/-- The sprite depends on the memory, `I` and the two origin registers alone. -/
theorem State.spritePixel_congr {s t : State} {x y : Reg} (n : Nibble) (hmem : t.mem = s.mem) (hi : t.i = s.i)
    (hx : t.reg x = s.reg x) (hy : t.reg y = s.reg y) (r : Fin 32) (c : Fin 64) :
    t.spritePixel x y n r c = s.spritePixel x y n r c := by
  simp only [State.spritePixel, State.effectiveAddress, hmem, hi, hx, hy]

end Sys2Proof.Machine
end

section
/-! PROOFS. The statements of 43_index_memory.md on ADD I and the memory transfers. -/

namespace Sys2Proof.Proofs
open Sys2Proof.Machine

/-- Settles O34. -/
theorem addToIndexStaysInRange : Obligations.AddToIndexStaysInRange := by
  refine ⟨?decode, fun x s => ⟨fun hle => ?sum, exec_addI_of_lt⟩⟩
  case decode => exact decodesAs_of_classF rfl fun w hbyte => by rw [decodeClassF, hbyte]; rfl
  case sum =>
    have hnext := exec_addI_of_le hle
    exact ⟨_, hnext, toNat_index_add_byte hle, rfl, execChangesOnlyWhatItsRuleWrites _ s _ hnext⟩

/-- Settles O36: a digit of a byte fits a byte. -/
theorem bcdStoreWritesTheDigits : Obligations.BcdStoreWritesTheDigits := by
  refine ⟨?decode, fun x s hm hi => ?exec⟩
  case decode => exact decodesAs_of_classF rfl fun w hbyte => by rw [decodeClassF, hbyte]; rfl
  case exec =>
    have hnext := exec_ldBcd_of_le (x := x) hi
    have hread {k : Nat} (hk : k < 3) := State.read_storeBlock_bcdDigits hm (s.reg x) hk
    have hbyte := (s.reg x).isLt
    refine ⟨_, hnext, ?hundreds, ?tens, ?ones, rfl, execChangesOnlyWhatItsRuleWrites _ s _ hnext⟩
    case hundreds => exact (congrArg BitVec.toNat (hread (by decide))).trans (toNat_byte_ofNat (by omega))
    case tens => exact (congrArg BitVec.toNat (hread (by decide))).trans (toNat_byte_ofNat (by omega))
    case ones => exact (congrArg BitVec.toNat (hread (by decide))).trans (toNat_byte_ofNat (by omega))

/-- Settles O37. -/
theorem storeWritesTheRegisters : Obligations.StoreWritesTheRegisters := by
  refine ⟨?decode, fun x s hm hi => ?exec⟩
  case decode => exact decodesAs_of_classF rfl fun w hbyte => by rw [decodeClassF, hbyte]; rfl
  case exec =>
    have hnext := exec_store_of_le hi
    refine ⟨_, hnext, fun k hk => State.read_storeBlock_regBlock hm hk, rfl,
      (execChangesOnlyWhatItsRuleWrites _ s _ hnext).mono ?frame⟩
    rintro e (hpc | ⟨k, hk, hmem⟩)
    · exact .inl hpc
    · exact .inr ⟨k, Nat.lt_succ_iff.1 hk, hmem⟩

/-- Settles O38. -/
theorem loadReadsTheRegisters : Obligations.LoadReadsTheRegisters := by
  refine ⟨?decode, fun x s hi => ?exec⟩
  case decode => exact decodesAs_of_classF rfl fun w hbyte => by rw [decodeClassF, hbyte]; rfl
  case exec =>
    have hnext := exec_load_of_le hi
    exact ⟨_, hnext, fun k hk => State.reg_loadRegs_of_le s hk, congrArg (· + 2) (State.loadRegs_pc s _),
      execChangesOnlyWhatItsRuleWrites _ s _ hnext⟩

/-- Settles O39: the range check of each form has its number of bytes. -/
theorem accessPastMemoryFaults : Obligations.AccessPastMemoryFaults := fun x y n s =>
  ⟨fun h => checkRange_fault.2 ⟨by decide, h, rfl⟩,
    fun h => checkRange_fault.2 ⟨Nat.succ_pos x.val, h, rfl⟩,
    fun h => checkRange_fault.2 ⟨Nat.succ_pos x.val, h, rfl⟩,
    fun hn h => checkRange_fault.2 ⟨hn, h, rfl⟩⟩

/-- Settles O40: the load reads at the addresses of the store. -/
theorem loadAfterStoreGivesTheRegistersBack : Obligations.LoadAfterStoreGivesTheRegistersBack := by
  intro x s t u hm h hmem hi
  obtain ⟨hrange, rfl⟩ := execStore_next h
  have hi' : u.i = s.i := hi
  have hnext : exec (.load x) u = _ := exec_load_of_le (by rw [hi']; omega)
  refine ⟨_, hnext, fun k hk => ?_⟩
  calc (u.loadRegs (x.val + 1)).reg k
    _ = u.mem.read (u.effectiveAddress k.val) := State.reg_loadRegs_of_le u hk
    _ = (s.storeBlock (s.regBlock x)).mem.read (s.effectiveAddress k.val) := by
        rw [hmem, State.effectiveAddress, hi']; rfl
    _ = s.reg k := State.read_storeBlock_regBlock hm hk

/-- Settles O41: the fetch reads the bytes of two neighbouring registers of the block. -/
theorem storedBytesAreFetched : Obligations.StoredBytesAreFetched := by
  intro x k s t u hm h hmem hk hpc
  obtain ⟨-, rfl⟩ := execStore_next h
  have hsucc : (k + 1).val = k.val + 1 := Fin.val_add_one_of_lt (lt_of_lt_of_le hk (Fin.le_last x))
  have hread {j : Reg} (hj : j ≤ x) : u.mem.read (s.effectiveAddress j.val) = s.reg j :=
    hmem ▸ State.read_storeBlock_regBlock hm hj
  have hhigh := hread (Fin.le_of_lt hk)
  have hlow := hread (j := k + 1) (Fin.le_def.2 (hsucc ▸ hk))
  rw [hsucc] at hlow
  rw [State.toNat_fetchWord, hpc, hhigh]
  rw [show s.effectiveAddress k.val + 1 = s.effectiveAddress (k.val + 1) from rfl, hlow]

end Sys2Proof.Proofs
end

section
/-! PROOFS. The statements of 44_display.md on the draw. -/

namespace Sys2Proof.Proofs
open Sys2Proof.Machine

/-- Settles O43. -/
theorem drawXorsTheSprite : Obligations.DrawXorsTheSprite := by
  refine ⟨?decode, fun x y n s hrange => ?exec⟩
  case decode =>
    intro w h
    rw [decodeWord, toNat_classOf_of_and_F000 h]
    rfl
  case exec =>
    have hhit := s.hit_drawSprite x y n
    refine ⟨_, exec_drw_of_le (by omega), s.pixel_drawSprite x y n, fun hmet => ?erased, fun hmiss => ?kept, rfl,
      onlyChanges_draw s x y n⟩
    case erased => rw [State.reg_vf_commitDrawing, hhit.2 hmet]; rfl
    case kept => rw [State.reg_vf_commitDrawing, Bool.eq_false_iff.2 (mt hhit.1 hmiss)]; rfl

/-- Settles O44: the second draw has the sprite of the first, and XOR with it undoes the first. -/
theorem drawTwiceRestoresTheFramebuffer : Obligations.DrawTwiceRestoresTheFramebuffer := by
  intro x y n s t h hx hy
  obtain ⟨hrange, rfl⟩ := execDrw_next h
  set t := (s.commitDrawing (s.drawSprite x y n)).advance
  have hsprite := State.spritePixel_congr (s := s) (t := t) n rfl rfl hx hy
  have hfirst (r : Fin 32) (c : Fin 64) :
      Framebuffer.pixel t.fb r c = (Framebuffer.pixel s.fb r c ^^ s.spritePixel x y n r c) := s.pixel_drawSprite x y n r c
  refine ⟨_, exec_drw_of_le hrange, fun r c => ?pixels, ?flag⟩
  case pixels =>
    have hsecond := t.pixel_drawSprite x y n r c
    rw [hsprite, hfirst, Bool.xor_assoc, Bool.xor_self, Bool.xor_false] at hsecond
    exact hsecond
  case flag =>
    have hflag : flagByte (t.drawSprite x y n).hit = 1 ↔ (t.drawSprite x y n).hit = true := by
      cases (t.drawSprite x y n).hit <;> decide
    rw [State.reg_vf_commitDrawing, hflag, State.hit_drawSprite]
    refine exists_congr fun r => exists_congr fun c => ?_
    rw [hsprite, hfirst]
    cases s.spritePixel x y n r c <;> cases Framebuffer.pixel s.fb r c <;> decide

end Sys2Proof.Proofs
end

section
/-! SUPPORT. The keypad forms of 45_timers_keypad.md, and the faults of 60_exceptions.md: on which operands each form of its
table stops. -/

namespace Sys2Proof.Machine

theorem exec_skp_of_key {x : Reg} {s : State} {down : Bool} (h : s.keyNamed (s.reg x) = some down) :
    exec (.skp x) s = retireSkipping down s := by
  show execSkp x s = _
  simp only [execSkp, h]

theorem exec_sknp_of_key {x : Reg} {s : State} {down : Bool} (h : s.keyNamed (s.reg x) = some down) :
    exec (.sknp x) s = retireSkipping (!down) s := by
  show execSknp x s = _
  simp only [execSknp, h]

theorem exec_ldKey_of_some {x : Reg} {s : State} {k : Key} (h : s.firstKeyDown = some k) :
    exec (.ldKey x) s = .next (s.setReg x (BitVec.ofNat 8 k.val)).advance := by
  show execLdKey x s = _
  simp only [execLdKey, h, retire]

theorem exec_ldKey_of_none {x : Reg} {s : State} (h : s.firstKeyDown = none) : exec (.ldKey x) s = .next s := by
  show execLdKey x s = _
  simp only [execLdKey, h]

section
variable {s : State} {f : Fault}

theorem exec_call_fault_iff {nnn : Addr} : exec (.call nnn) s = .fault f ↔
    s.stack.length ≤ s.sp + 1 ∧ f = .stackOverflow s.pc (encodeWord (.call nnn)) := by
  simp only [exec, execCall, raise]
  split_ifs with hlt
  · simp [Nat.not_le.2 hlt]
  · simp [Nat.not_lt.1 hlt, eq_comm]

theorem exec_ret_fault_iff : exec .ret s = .fault f ↔ s.sp = 0 ∧ f = .stackUnderflow s.pc (encodeWord .ret) := by
  simp only [exec, execRet, raise]
  split_ifs with h0
  · simp [h0, eq_comm]
  · cases s.stack[s.sp]? <;> simp [h0]

theorem exec_addI_fault_iff {x : Reg} : exec (.addI x) s = .fault f ↔
    0xFFF < s.i.toNat + (s.reg x).toNat ∧
      f = .indexOutOfRange (s.i.toNat + (s.reg x).toNat) s.pc (encodeWord (.addI x)) := by
  by_cases hsum : 0xFFF < s.i.toNat + (s.reg x).toNat
  · simp [exec_addI_of_lt hsum, hsum, eq_comm]
  · simp [exec_addI_of_le (Nat.not_lt.1 hsum), hsum]

theorem exec_skp_fault_iff {x : Reg} : exec (.skp x) s = .fault f ↔
    15 < (s.reg x).toNat ∧ f = .keyIndexOutOfRange (s.reg x) s.pc (encodeWord (.skp x)) := by
  rw [← State.keyNamed_eq_none]
  simp only [exec, execSkp, raise]
  cases s.keyNamed (s.reg x) with
  | some down => simp [retireSkipping]
  | none => simp [eq_comm]

theorem exec_sknp_fault_iff {x : Reg} : exec (.sknp x) s = .fault f ↔
    15 < (s.reg x).toNat ∧ f = .keyIndexOutOfRange (s.reg x) s.pc (encodeWord (.sknp x)) := by
  rw [← State.keyNamed_eq_none]
  simp only [exec, execSknp, raise]
  cases s.keyNamed (s.reg x) with
  | some down => simp [retireSkipping]
  | none => simp [eq_comm]

theorem exec_ldBcd_fault_iff {x : Reg} : exec (.ldBcd x) s = .fault f ↔
    0xFFF < s.i.toNat + 3 - 1 ∧ f = .memoryOutOfRange (s.i.toNat + 3 - 1) s.pc (encodeWord (.ldBcd x)) :=
  checkRange_fault.trans (and_iff_right (by decide))

theorem exec_store_fault_iff {x : Reg} : exec (.store x) s = .fault f ↔
    0xFFF < s.i.toNat + (x.val + 1) - 1 ∧
      f = .memoryOutOfRange (s.i.toNat + (x.val + 1) - 1) s.pc (encodeWord (.store x)) :=
  checkRange_fault.trans (and_iff_right (Nat.succ_pos x.val))

theorem exec_load_fault_iff {x : Reg} : exec (.load x) s = .fault f ↔
    0xFFF < s.i.toNat + (x.val + 1) - 1 ∧
      f = .memoryOutOfRange (s.i.toNat + (x.val + 1) - 1) s.pc (encodeWord (.load x)) :=
  checkRange_fault.trans (and_iff_right (Nat.succ_pos x.val))

theorem exec_drw_fault_iff {x y : Reg} {n : Nibble} : exec (.drw x y n) s = .fault f ↔
    1 ≤ n.toNat ∧ 0xFFF < s.i.toNat + n.toNat - 1 ∧
      f = .memoryOutOfRange (s.i.toNat + n.toNat - 1) s.pc (encodeWord (.drw x y n)) :=
  checkRange_fault

end

end Sys2Proof.Machine
end

section
/-! PROOFS. The table of fault causes of 60_exceptions.md. -/

namespace Sys2Proof.Proofs
open Sys2Proof.Machine

/-- Settles O55: the forms that may stop have one line of the table each; the others complete in every state. -/
theorem faultCausesAreTheTable : Obligations.FaultCausesAreTheTable := by
  intro i s f
  by_cases hi : Instr.MayStop i
  · cases i with
    | call => simp [exec_call_fault_iff]
    | ret => simp [exec_ret_fault_iff]
    | addI => simp [exec_addI_fault_iff]
    | ldBcd => simp [exec_ldBcd_fault_iff]
    | store => simp [exec_store_fault_iff]
    | load => simp [exec_load_fault_iff]
    | drw => simp [exec_drw_fault_iff]
    | skp => simp [exec_skp_fault_iff]
    | sknp => simp [exec_sknp_fault_iff]
    | _ => exact hi.elim
  · obtain ⟨t, ht⟩ := exec_completes hi s
    refine iff_of_false (by rw [ht]; nofun) ?noLine
    rintro (⟨nnn, rfl, -⟩ | ⟨rfl, -⟩ | ⟨x, rfl, -⟩ | ⟨m, ⟨x, ⟨rfl, -⟩ | ⟨rfl, -⟩ | ⟨rfl, -⟩ | ⟨y, n, rfl, -⟩⟩, -⟩ |
      ⟨x, rfl | rfl, -⟩)
    all_goals exact hi trivial

end Sys2Proof.Proofs
end

section
/-! SUPPORT. What follows from the table: what a fault records, and on which fields of the state it depends. Then what an
instruction makes of another framebuffer (10_state.md section 8). -/

namespace Sys2Proof.Machine

/-- A fault of the execution records the `pc` and the instruction's word, all of whose bits the decoder reads. -/
theorem exec_fault_info {i : Instr} {s : State} {f : Fault} (h : exec i s = .fault f) :
    f.recordedPc = some s.pc ∧ (∃ c, f.code = some c ∧ 2 ≤ c ∧ c ≤ 7) ∧ f.recordedWord = some (encodeWord i) ∧
      decodedBits i = 0xFFFF := by
  obtain ⟨nnn, rfl, -, rfl⟩ | ⟨rfl, -, rfl⟩ | ⟨x, rfl, -, rfl⟩ |
    ⟨m, ⟨x, ⟨rfl, -⟩ | ⟨rfl, -⟩ | ⟨rfl, -⟩ | ⟨y, n, rfl, -⟩⟩, -, rfl⟩ | ⟨x, rfl | rfl, -, rfl⟩ :=
    (Proofs.faultCausesAreTheTable i s f).1 h
  all_goals exact ⟨rfl, ⟨_, rfl, by decide, by decide⟩, rfl, rfl⟩

/-- The two faults before the execution. -/
theorem State.fetch_error {s : State} {f : Fault} (h : s.fetch = .error f) :
    (0xFFE < s.pc.toNat ∧ f = .pcOutOfRange s.pc) ∨
    (s.pc.toNat ≤ 0xFFE ∧ f = .illegalInstruction s.fetchWord s.pc) := by
  rw [State.fetch_eq] at h
  split_ifs at h with hpc
  · exact .inl ⟨hpc, (Except.error.inj h).symm⟩
  · split at h
    · cases h
    · exact .inr ⟨Nat.not_lt.1 hpc, (Except.error.inj h).symm⟩

/-- The word that was fetched is the one that the encoder gives, where all its bits are decoded. -/
theorem encodeWord_of_fetch {s : State} {i : Instr} (h : s.fetch = .ok i) (hbits : decodedBits i = 0xFFFF) :
    encodeWord i = s.fetchWord := by
  obtain ⟨-, hword⟩ := Proofs.encodeAfterDecode s.fetchWord i (State.fetch_ok h).2
  rw [hword, hbits, and_FFFF]

section
variable {s u : State} (hpc : u.pc = s.pc) (hsp : u.sp = s.sp) (hstack : u.stack = s.stack) (hi : u.i = s.i)
  (hreg : ∀ k, u.reg k = s.reg k)
include hpc hsp hstack hi hreg

/-- The faults of the execution depend on `pc`, `sp`, the stack, `I` and the registers alone. -/
theorem exec_fault_congr {i : Instr} {f : Fault} (h : exec i s = .fault f) : exec i u = .fault f := by
  refine (Proofs.faultCausesAreTheTable i u f).2 ?_
  simpa only [hpc, hsp, hstack, hi, hreg] using (Proofs.faultCausesAreTheTable i s f).1 h

/-- The faults of a Step depend on those and the memory alone. -/
theorem cycle_fault_congr (hmem : u.mem = s.mem) {f : Fault} (h : cycle s = .fault f) : cycle u = .fault f := by
  have hfetch : u.fetch = s.fetch := by simp only [State.fetch_eq, State.fetchWord, hpc, hmem]
  obtain herror | ⟨i, hok, hexec⟩ := cycle_fault h
  · exact cycle_of_fetch_error (hfetch.trans herror)
  · exact (cycle_of_fetch (hfetch.trans hok)).trans (exec_fault_congr hpc hsp hstack hi hreg hexec)

end

theorem State.afterDraw_setFb (s : State) (f : Framebuffer) : (s.setFb f).afterDraw = s.afterDraw.setFb f := by
  simp only [State.afterDraw, State.setFb_rndIn]
  cases s.rndIn <;> rfl

theorem State.loadRegs_setFb (s : State) (f : Framebuffer) (n : Nat) :
    (s.setFb f).loadRegs n = (s.loadRegs n).setFb f := by
  induction n with
  | zero => rfl
  | succ n ih =>
    rw [State.loadRegs, ih]
    rfl

theorem retireSkipping_setFb {c : Bool} {s t : State} (f : Framebuffer) (h : retireSkipping c s = .next t) :
    retireSkipping c (s.setFb f) = .next (t.setFb f) := by
  obtain rfl := retireSkipping_next h
  cases c <;> rfl

/-- But for CLS and DRW an instruction carries another framebuffer along. -/
theorem exec_setFb {i : Instr} {s t : State} (f : Framebuffer) (hcls : i ≠ .cls) (hdrw : ∀ x y n, i ≠ .drw x y n)
    (h : exec i s = .next t) : exec i (s.setFb f) = .next (t.setFb f) := by
  cases i with
  | cls => exact absurd rfl hcls
  | drw x y n => exact absurd rfl (hdrw x y n)
  | ldImm | addImm | ldReg | orReg | andReg | xorReg | addReg | subReg | shr | subn | shl | ldI | ldFromDt |
      ldToDt | ldToSt | ldFont | alunop8 | alunop9 | alunopA | alunopB | alunopC | alunopD | alunopF =>
    obtain rfl := retire_next h
    rfl
  | rnd x nn =>
    obtain rfl := retire_next h
    rw [exec_rnd, State.afterDraw_setFb]
    rfl
  | sys | jp | jpV0 =>
    cases h
    rfl
  | ret =>
    obtain ⟨a, h0, hentry, rfl⟩ := execRet_next h
    exact exec_ret_of_entry (s := s.setFb f) h0 hentry
  | call nnn =>
    obtain ⟨hlt, rfl⟩ := execCall_next h
    exact exec_call_of_lt (s := s.setFb f) nnn hlt
  | seImm | sneImm | seReg | sneReg => exact retireSkipping_setFb f h
  | skp x =>
    obtain ⟨down, hkey, h⟩ := execSkp_next h
    exact (exec_skp_of_key (s := s.setFb f) hkey).trans (retireSkipping_setFb f h)
  | sknp x =>
    obtain ⟨down, hkey, h⟩ := execSknp_next h
    exact (exec_sknp_of_key (s := s.setFb f) hkey).trans (retireSkipping_setFb f h)
  | ldKey x =>
    obtain ⟨k, hkey, rfl⟩ | ⟨hnone, rfl⟩ := execLdKey_next h
    · exact exec_ldKey_of_some (s := s.setFb f) hkey
    · exact exec_ldKey_of_none (s := t.setFb f) hnone
  | addI x =>
    obtain ⟨hsum, rfl⟩ := execAddI_next h
    exact exec_addI_of_le (s := s.setFb f) hsum
  | ldBcd x =>
    obtain ⟨hrange, rfl⟩ := execLdBcd_next h
    exact exec_ldBcd_of_le (s := s.setFb f) (show s.i.toNat + 2 ≤ 0xFFF by omega)
  | store x =>
    obtain ⟨hrange, rfl⟩ := execStore_next h
    exact exec_store_of_le (s := s.setFb f) (show s.i.toNat + x.val ≤ 0xFFF by omega)
  | load x =>
    obtain ⟨hrange, rfl⟩ := execLoad_next h
    rw [exec_load_of_le (s := s.setFb f) (show s.i.toNat + x.val ≤ 0xFFF by omega), State.loadRegs_setFb]
    rfl

/-- Two drawings committed to states that differ in the pixels alone: only pixels and VF differ. -/
theorem onlyChanges_commitDrawing (s : State) (f : Framebuffer) (d d' : Drawing) :
    OnlyChanges (s.commitDrawing d).advance ((s.setFb f).commitDrawing d').advance
      (fun e => (∃ r c, e = .fb r c) ∨ e = .v 15) := by
  intro e he
  cases e with
  | fb r c => exact absurd (.inl ⟨r, c, rfl⟩) he
  | v k =>
    have hk : k ≠ vf := fun hvf => he (.inr (hvf ▸ rfl))
    simp [Element.same, hk]
  | _ => rfl

end Sys2Proof.Machine
end

section
/-! PROOFS. The statements of 60_exceptions.md on what a fault records and when it comes again, and the framebuffer's
isolation of 10_state.md section 8. -/

namespace Sys2Proof.Proofs
open Sys2Proof.Machine

/-- Settles O56: the fetch and the decode record what they read, and the execution the word that encodes its
instruction. -/
theorem faultRecordsPcAndWord : Obligations.FaultRecordsPcAndWord := by
  intro s f h
  obtain hfetch | ⟨i, hfetch, hexec⟩ := cycle_fault h
  · obtain ⟨hpc, rfl⟩ | ⟨hpc, rfl⟩ := State.fetch_error hfetch
    · exact ⟨rfl, .inl ⟨hpc, rfl, rfl⟩⟩
    · exact ⟨rfl, .inr ⟨hpc, ⟨2, rfl, by decide, by decide⟩, rfl⟩⟩
  · obtain ⟨hrecorded, hcode, hword, hbits⟩ := exec_fault_info hexec
    exact ⟨hrecorded, .inr ⟨(State.fetch_ok hfetch).1, hcode, hword.trans (congrArg some (encodeWord_of_fetch hfetch hbits))⟩⟩

/-- Settles O57: timers, keys and the random input are none of the fields that a fault depends on. -/
theorem faultComesAgain : Obligations.FaultComesAgain := fun s _ h =>
  ⟨cycle_fault_congr (s := s) (u := s.tick) rfl rfl rfl rfl (fun _ => rfl) rfl h,
    fun k b => cycle_fault_congr (s := s) (u := s.keyWrite k b) rfl rfl rfl rfl (fun _ => rfl) rfl h,
    fun rs n => cycle_fault_congr (s := s) (u := { s with rndIn := rs, rndDraws := n }) rfl rfl rfl rfl (fun _ => rfl) rfl h⟩

/-- Settles O45: CLS overwrites the framebuffer, DRW reads it into pixels and VF, and every other instruction carries it
along. -/
theorem framebufferIsSeenOnlyByCollision : Obligations.FramebufferIsSeenOnlyByCollision := by
  refine fun i s f => ⟨fun t h => ?next, fun g h => ?fault⟩
  case fault => exact exec_fault_congr (s := s) (u := s.setFb f) rfl rfl rfl rfl (fun _ => rfl) h
  case next =>
    by_cases hcls : i = .cls
    · subst hcls
      obtain rfl := retire_next h
      exact ⟨_, exec_cls (s.setFb f), OnlyChanges.refl _ _⟩
    by_cases hdrw : ∃ x y n, i = .drw x y n
    · obtain ⟨x, y, n, rfl⟩ := hdrw
      obtain ⟨hrange, rfl⟩ := execDrw_next h
      refine ⟨_, exec_drw_of_le (s := s.setFb f) hrange, (onlyChanges_commitDrawing s f _ _).mono ?_⟩
      exact fun e he => he.imp_right fun hvf => ⟨⟨x, y, n, rfl⟩, hvf⟩
    · have hnext := exec_setFb f hcls (fun x y n heq => hdrw ⟨x, y, n, heq⟩) h
      exact ⟨_, hnext, (OnlyChanges.refl t _).setFb fun r c _ => .inl ⟨r, c, rfl⟩⟩

end Sys2Proof.Proofs
end

section
/-! SUPPORT. The key wait as an outcome of a Step (00_scope.md R10), runs of steps, and who writes the timers and the keys. -/

namespace Sys2Proof.Machine

theorem State.waitsForKey_iff (s : State) :
    s.waitsForKey = true ↔ ∃ x, s.fetch = .ok (.ldKey x) ∧ ∀ k : Key, s.key[k.val] = false := by
  simp only [State.waitsForKey]
  split
  · rename_i x hfetch
    rw [Option.isNone_iff_eq_none, State.firstKeyDown_eq_none]
    exact ⟨fun hkeys => ⟨x, hfetch, hkeys⟩, fun ⟨_, _, hkeys⟩ => hkeys⟩
  · rename_i hother
    refine iff_of_false Bool.false_ne_true ?_
    rintro ⟨x, hfetch, -⟩
    exact hother x hfetch

/-- A waiting Step leaves the state as it was. -/
theorem cycle_of_wait {s : State} {x : Reg} (hfetch : s.fetch = .ok (.ldKey x)) (hkeys : ∀ k : Key, s.key[k.val] = false) :
    cycle s = .next s :=
  (cycle_of_fetch hfetch).trans (exec_ldKey_of_none ((State.firstKeyDown_eq_none s).2 hkeys))

/-- A run begins with one step. -/
theorem run_succ {M : Host.Core} {s u : M.State} (k : Nat) (h : M.step s = .next u) : M.run (k + 1) s = M.run k u := by
  rw [Host.Core.run, h]

/-- A state that its step leaves as it is stays so for any number of steps. -/
theorem run_of_fixed {s : State} (h : step s = .next s) (n : Nat) : Host.Core.run Sys2Proof.core n s = .next s := by
  induction n with
  | zero => rfl
  | succ n ih => exact (run_succ n h).trans ih

theorem run_two {s u t : State} (hsu : step s = .next u) (hut : step u = .next t) :
    Host.Core.run Sys2Proof.core 2 s = .next t :=
  (run_succ 1 hsu).trans (run_succ 0 hut)

/-- After `KeyWrite(k, true)` in a state with no key down, `k` is the one found. -/
theorem State.firstKeyDown_keyWrite {s : State} (k : Key) (hkeys : ∀ j : Key, s.key[j.val] = false) :
    (s.keyWrite k true).firstKeyDown = some k := by
  refine State.firstKeyDown_eq_some _ k ?down fun j hj => ?others
  case down => rw [State.getElem_key_keyWrite, if_pos rfl]
  case others => rw [State.getElem_key_keyWrite, if_neg (Fin.ne_of_lt hj), hkeys]

/-- A count that changes the timer takes one off. -/
theorem countDown_of_changed {t : Byte} (h : countDown t ≠ t) : countDown t = t - 1 := by
  unfold countDown at h ⊢
  split_ifs at h ⊢ with h0
  · exact absurd h0.symm h
  · rfl

section
variable {s t : State} (h : cycle s = .next t)
include h

/-- In a Step `dt` has the one writer LD DT. -/
theorem cycle_next_dt (hdt : t.dt ≠ s.dt) : ∃ x, s.fetch = .ok (.ldToDt x) ∧ t.dt = s.reg x := by
  obtain ⟨i, hfetch, hexec⟩ := cycle_next h
  have hwrites : writes s i .dt := not_not.1 fun hn => hdt (same_of_exec_next hexec hn)
  obtain ⟨x, rfl⟩ := (writes_dt_iff s i).1 hwrites
  obtain rfl := retire_next hexec
  exact ⟨x, hfetch, rfl⟩

/-- In a Step `st` has the one writer LD ST. -/
theorem cycle_next_st (hst : t.st ≠ s.st) : ∃ x, s.fetch = .ok (.ldToSt x) ∧ t.st = s.reg x := by
  obtain ⟨i, hfetch, hexec⟩ := cycle_next h
  have hwrites : writes s i .st := not_not.1 fun hn => hst (same_of_exec_next hexec hn)
  obtain ⟨x, rfl⟩ := (writes_st_iff s i).1 hwrites
  obtain rfl := retire_next hexec
  exact ⟨x, hfetch, rfl⟩

theorem cycle_next_key (k : Key) : t.key[k.val] = s.key[k.val] := by
  obtain ⟨i, -, hexec⟩ := cycle_next h
  exact same_of_exec_next hexec (e := .key k) (not_writes_key s i k)

end

/-- A class E word is dispatched by its low byte, whatever `x` (30_encoding.md R75). -/
theorem decodesAs_of_classE {p : Word} {build : Word → Instr} (hp : p.toNat / 4096 = 14)
    (hbuild : ∀ w, nnOf w = nnOf p → decodeClassE w = .ok (build w)) : DecodesAs 0xF0FF p build := by
  intro w h
  obtain ⟨hclass, hbyte⟩ := fields_of_and_F0FF h
  rw [decodeWord, toNat_classOf, hclass, hp]
  exact hbuild w ((nnOf_eq_iff w _).2 (hbyte.trans (toNat_nnOf p).symm))

end Sys2Proof.Machine
end

section
/-! PROOFS. The statements of 45_timers_keypad.md on the keypad and of 10_state.md sections 7 and 9 on the writers, and the
self-jump of 70_reset_and_hazards.md. -/

namespace Sys2Proof.Proofs
open Sys2Proof.Machine

/-- Settles O48: a key number names its flag, and a larger value none. -/
theorem keypadSkipsSampleTheLatch : Obligations.KeypadSkipsSampleTheLatch := by
  refine ⟨?decodeSkp, ?decodeSknp, fun x s => ⟨fun k hk => ⟨?skp, ?sknp⟩, fun hlt => ?fault⟩⟩
  case decodeSkp | decodeSknp =>
    exact decodesAs_of_classE rfl fun w hbyte => by rw [decodeClassE, hbyte]; rfl
  case skp =>
    obtain ⟨t, hnext, hskip, hadvance, -⟩ := retireSkipping_completes s.key[k.val] s
    exact ⟨t, (exec_skp_of_key (State.keyNamed_eq_some s _ k hk)).trans hnext, hskip, hadvance,
      onlyChanges_of_retireSkipping hnext rfl⟩
  case sknp =>
    obtain ⟨t, hnext, hskip, hadvance, -⟩ := retireSkipping_completes (!s.key[k.val]) s
    exact ⟨t, (exec_sknp_of_key (State.keyNamed_eq_some s _ k hk)).trans hnext, fun hup => hskip (by rw [hup]; rfl),
      fun hdown => hadvance (by rw [hdown]; rfl), onlyChanges_of_retireSkipping hnext rfl⟩
  case fault => exact ⟨exec_skp_fault_iff.2 ⟨hlt, rfl⟩, exec_sknp_fault_iff.2 ⟨hlt, rfl⟩⟩

/-- Settles O49. -/
theorem keyWaitStoresTheSmallestKey : Obligations.KeyWaitStoresTheSmallestKey := by
  refine ⟨?decode, fun x s => ⟨fun k hk hsmaller => ?stored, fun hkeys => ?waits⟩⟩
  case decode => exact decodesAs_of_classF rfl fun w hbyte => by rw [decodeClassF, hbyte]; rfl
  case stored =>
    have hnext := exec_ldKey_of_some (x := x) (State.firstKeyDown_eq_some s k hk hsmaller)
    refine ⟨_, hnext, ?_, rfl, execChangesOnlyWhatItsRuleWrites _ s _ hnext⟩
    rw [State.reg_advance, State.reg_setReg, if_pos rfl]
    exact toNat_byte_ofNat (by omega)
  case waits => exact exec_ldKey_of_none ((State.firstKeyDown_eq_none s).2 hkeys)

/-- Settles O50: a Step that waits for a key does not change the state, so it is no fault. -/
theorem waitKeyIsTheIdleStep : Obligations.WaitKeyIsTheIdleStep := by
  intro s
  rw [← State.waitsForKey_iff]
  by_cases hwait : s.waitsForKey = true
  · obtain ⟨x, hfetch, hkeys⟩ := s.waitsForKey_iff.1 hwait
    have hcycle := cycle_of_wait hfetch hkeys
    have hresult : s.stepResult = .waitKey := by simp only [State.stepResult, hcycle, hwait, if_true]
    exact ⟨iff_of_true hresult hwait, fun _ => hcycle, fun t ht => by rw [hresult] at ht; cases ht⟩
  · have hresult : s.stepResult ≠ .waitKey := by
      unfold State.stepResult
      split
      · rw [if_neg hwait]; nofun
      · nofun
      · nofun
    refine ⟨iff_of_false hresult hwait, fun h => absurd h hresult, fun t ht => ?retired⟩
    unfold State.stepResult at ht
    split at ht
    · rename_i u hu
      rw [if_neg hwait] at ht
      cases ht
      exact hu
    · cases ht
    · cases ht

/-- Settles O51: the first step writes the latch, the second finds the key. -/
theorem keyWriteEndsTheWait : Obligations.KeyWriteEndsTheWait := by
  refine fun s x hfetch hkeys => ⟨fun hp => ?waits, fun k hp => ?ends⟩
  case waits => exact run_of_fixed ((step_of_no_event hp).trans (cycle_of_wait hfetch hkeys))
  case ends =>
    let u := State.keyWrite { s with pending := [] } k true
    have hlatch : step s = .next u := step_of_event hp
    have hfound : u.firstKeyDown = some k := State.firstKeyDown_keyWrite k hkeys
    have hcycle : cycle u = exec (.ldKey x) u := cycle_of_fetch hfetch
    have hstored := (step_of_no_event rfl).trans (hcycle.trans (exec_ldKey_of_some hfound))
    refine ⟨_, run_two hlatch hstored, ?_, rfl, rfl⟩
    rw [State.reg_advance, State.reg_setReg, if_pos rfl]
    exact toNat_byte_ofNat (by omega)

/-- Settles O54: each event of a step in turn. -/
theorem timersAndKeysHaveOnlyTheirWriters : Obligations.TimersAndKeysHaveOnlyTheirWriters := by
  intro s t h hboot
  obtain ⟨hp, hcycle⟩ | ⟨rest, hp, hcycle⟩ | ⟨rest, hp, rfl⟩ | ⟨k, b, rest, hp, rfl⟩ | ⟨rom, rest, hp, -⟩ := step_next h
  · exact ⟨fun hdt => .inr ⟨.inl hp, cycle_next_dt hcycle hdt⟩, fun hst => .inr ⟨.inl hp, cycle_next_st hcycle hst⟩,
      fun k hk => absurd (cycle_next_key hcycle k) hk⟩
  · exact ⟨fun hdt => .inr ⟨.inr ⟨rest, hp⟩, cycle_next_dt (s := { s with pending := rest }) hcycle hdt⟩,
      fun hst => .inr ⟨.inr ⟨rest, hp⟩, cycle_next_st (s := { s with pending := rest }) hcycle hst⟩,
      fun k hk => absurd (cycle_next_key hcycle k) hk⟩
  · exact ⟨fun hdt => .inl ⟨rest, hp, countDown_of_changed hdt⟩, fun hst => .inl ⟨rest, hp, countDown_of_changed hst⟩,
      fun k hk => absurd rfl hk⟩
  · refine ⟨fun hdt => absurd rfl hdt, fun hst => absurd rfl hst, fun j hj => ?_⟩
    have hjk : j = k := by
      by_contra hne
      exact hj ((State.getElem_key_keyWrite _ k j b).trans (if_neg hne))
    exact ⟨b, rest, hjk ▸ hp⟩
  · exact absurd hp (hboot rom rest)

/-- Settles O58: the jump writes the `pc` that stands there. -/
theorem selfJumpIsQuiescent : Obligations.SelfJumpIsQuiescent := by
  intro s ⟨nnn, hfetch, htarget⟩ hp
  refine run_of_fixed ?_
  rw [step_of_no_event hp, cycle_of_fetch hfetch, exec_jp, htarget]
  rfl

end Sys2Proof.Proofs
end
